-- ==== Sys2Proof/Word.lean ====
section
/-! DEFINITION. The widths the spec fixes: bytes (R9) and the 16-bit command word (R47). -/

namespace Sys2Proof

/-- Every datum of the block is one unsigned byte (R9, R14, R34). -/
abbrev Byte := BitVec 8

/-- A command is one 16-bit word, bit 15 the most significant (R34, R47). -/
abbrev CmdWord := BitVec 16

end Sys2Proof
end

