-- ==== Sys2Proof/Syntax.lean ====
section
/-! DEFINITION. The commands of the block: one constructor per row of spec/opcode_table.json (R6, R50). -/

namespace Sys2Proof

/-- The three encoded operations (R6). `ch` is the 4-bit channel field and `val` the 8-bit duty field, both unsigned and
used as they stand (R49). RESET, TICK and SERVICE have no command word (R54) and are operations of the machine. -/
inductive Instr where
  /-- `INIT` (R61): no operands. -/
  | init
  /-- `SET_DUTY ch, val` (R58). -/
  | setDuty (ch : BitVec 4) (val : Byte)
  /-- `GET_DUTY ch` (R59). -/
  | getDuty (ch : BitVec 4)
deriving DecidableEq, Repr

end Sys2Proof
end

