-- ==== Sys2Proof/Decode.lean ====
section
/-! DEFINITION. The command decoder, total on all 65536 words (R48 to R55), and after it the encoder that gives the
canonical word of a command. -/

namespace Sys2Proof

/-- `op = cmd[15:12]` (R48). -/
def opField (w : CmdWord) : BitVec 4 := w.extractLsb' 12 4

/-- `ch = cmd[11:8]` (R48). -/
def chField (w : CmdWord) : BitVec 4 := w.extractLsb' 8 4

/-- `val = cmd[7:0]` (R48). -/
def valField (w : CmdWord) : Byte := w.extractLsb' 0 8

/-- What the opcode map reads from a word: a command, or a reserved opcode (R50, R52). -/
inductive Decoded where
  /-- The word selects a row of the opcode map. -/
  | instr (i : Instr)
  /-- `op` is 0x0 or 0x4..0xF (R52). -/
  | badOpcode
deriving DecidableEq, Repr

/-- The opcode map (R50). Fields an operation does not use are ignored (R51). Whether a channel is below N is not asked
here: the command's own meaning asks it (R58, R59), and `decodeChecked` below is R55's decoder with that test inside. -/
def decode (w : CmdWord) : Decoded :=
  if opField w = 0x1#4 then .instr .init
  else if opField w = 0x2#4 then .instr (.setDuty (chField w) (valField w))
  else if opField w = 0x3#4 then .instr (.getDuty (chField w))
  else .badOpcode

/-- The five results of R55's decoder. -/
inductive Checked where
  | init
  | setDuty (ch : BitVec 4) (val : Byte)
  | getDuty (ch : BitVec 4)
  /-- `SET_DUTY` or `GET_DUTY` with `ch >= N` (R53). -/
  | badChannel
  /-- A reserved opcode (R52). -/
  | badOpcode
deriving DecidableEq, Repr

/-- R55's decoding algorithm for a block of `n` channels, line by line: the opcode is examined before the channel. -/
def decodeChecked (n : Nat) (w : CmdWord) : Checked :=
  let op := opField w
  let ch := chField w
  let val := valField w
  if op = 0x1#4 then .init
  else if op = 0x2#4 ∧ ch.toNat < n then .setDuty ch val
  else if op = 0x2#4 then .badChannel
  else if op = 0x3#4 ∧ ch.toNat < n then .getDuty ch
  else if op = 0x3#4 then .badChannel
  else .badOpcode

/-- The `mask` column of the opcode map, the same for every row (R50). -/
def rowMask : CmdWord := 0xF000#16

/-- The `match` column of the opcode map (R50): a word `w` selects the row of `i` iff `w & rowMask = rowMatch i`. -/
def rowMatch : Instr → CmdWord
  | .init => 0x1000#16
  | .setDuty _ _ => 0x2000#16
  | .getDuty _ => 0x3000#16

/-- Format C: `op`, `ch` and `val`, most significant first (R48). -/
def formatC (op ch : BitVec 4) (val : Byte) : CmdWord := op ++ ch ++ val

/-- The canonical word of a command, zeros in the ignored fields (R50, R51). -/
def encode : Instr → CmdWord
  | .init => formatC 0x1#4 0x0#4 0x00#8
  | .setDuty ch val => formatC 0x2#4 ch val
  | .getDuty ch => formatC 0x3#4 ch 0x00#8

/-- The command that the decoder reads from a table word: `w` holds the `nbits` bits of the row, bit 0 the least
significant; the block takes the word whole from its 16-bit port (R34, R47), so no byte order enters. -/
def decodeTableWord (nbits w : Nat) : Option Instr :=
  match decode (BitVec.ofNat 16 (w % 2 ^ nbits)) with
  | .instr i => some i
  | .badOpcode => none

end Sys2Proof
end

