-- ==== Sys2Proof/Config.lean ====
section
/-! DEFINITION. The build-time parameters of the block (R8 to R13) and their reference values. Every value of this type
is a combination of parameters that the spec admits, so no check of a configuration is needed anywhere. -/

namespace Sys2Proof

/-- The build-time parameters, fixed for the life of the block (R8, R10, R11, R12; R26). -/
structure Config where
  /-- N - 1, the highest channel index: R8 admits 1 <= N <= 8 and no other N. -/
  topChannel : Fin 8
  /-- `CH0_RAW` (R10). -/
  ch0Raw : Bool
  /-- `HW_SUPPORTED` (R11). -/
  hwSupported : Bool
  /-- `PLANE_RESET` is the legacy value 0x00 and not 0x01; R12 admits these two only. -/
  legacyPlaneReset : Bool
  /-- `CMP_RESET` (R12). -/
  cmpReset : Byte
  /-- `DUTY_RESET` (R12). -/
  dutyReset : Byte
deriving DecidableEq, Repr

/-- N, the channel count (R8). -/
def Config.n (c : Config) : Nat := c.topChannel.val + 1

/-- `PLANE_RESET` as a byte (R12). -/
def Config.planeReset (c : Config) : Byte := if c.legacyPlaneReset then 0x00 else 0x01

/-- The reference values of all parameters (00_scope.md section 5; 92_eei_decisions.md, open parameters). -/
def Config.reference : Config :=
  { topChannel := 4, ch0Raw := false, hwSupported := true, legacyPlaneReset := false, cmpReset := 0x01, dutyReset := 0x00 }

/-- `TICK_DIV` of the reference environment (R13): a property of the environment, used only by the stimulus `TICKS_REAL`. -/
def Config.tickDivReference : Nat := 256

end Sys2Proof
end

