-- ==== Sys2Proof/Machine/State.lean ====
section
/-! DEFINITION. The state of the block (R16), the pins of a cycle (R31), the whole machine's state as plain data, and the
reasons a step could stop. -/

namespace Sys2Proof.Machine

/-- The Channel Store as memory: the one address space of the block, one-byte cells named by a channel index (R32). A list
of (index, byte) pairs in canonical form (`Memory.wf` in Ops.lean); an unlisted index reads as `DUTY_RESET`. -/
abbrev Memory := List Host.Cell

/-- The whole state of the block: the seven elements of R16 and nothing else. -/
structure Block where
  /-- `DUTY[0..N-1]`, the Channel Store (R17, R32). -/
  duty : Memory
  /-- `PLANE`, the Bit-Plane Mask (R18). -/
  plane : Byte
  /-- `CNT`, the running counter (R19). -/
  cnt : Byte
  /-- `CMP`, the compare register (R20). -/
  cmp : Byte
  /-- `OUT`, the output register (R21). -/
  out : Byte
  /-- `OE`, the output-enable register (R22). -/
  oe : Byte
  /-- `EN`: false is the state OFF, true the state ARMED (R23, R65). -/
  en : Bool
deriving DecidableEq, Repr

/-- The inputs of one clock cycle (R31). -/
structure CycleIn where
  rst : Bool
  tick : Bool
  cmdValid : Bool
  cmd : CmdWord
deriving DecidableEq, Repr

/-- The combinational outputs of one clock cycle (R31). -/
structure CycleOut where
  /-- `slice_evt` (R74). -/
  sliceEvt : Bool
  /-- `rsp_valid` (R59). -/
  rspValid : Bool
  /-- `rsp_data` (R59). -/
  rspData : Byte
  /-- `cmd_err` (R105). -/
  cmdErr : BitVec 2
deriving DecidableEq, Repr

/-- The causes of a command error, complete (R105). -/
inductive CmdError where
  /-- `E_OPCODE`: a reserved opcode (R52). -/
  | eOpcode
  /-- `E_CHANNEL`: a channel index not below N (R53). -/
  | eChannel
deriving DecidableEq, Repr

/-- The block together with what surrounds it. R16's record is `block`; the other fields are the model's own, because a
step takes a state and nothing else (notes/assumptions 1, 2, 3, 4). -/
structure State where
  /-- The build-time parameters (R8 to R12); no operation writes them (R125). -/
  cfg : Config
  /-- The state the spec gives the block (R16). -/
  block : Block
  /-- The inputs of the current cycle, then those of the cycles after it; past the end every input is 0. -/
  inputs : List CycleIn
  /-- The combinational outputs of the cycle that just ended. -/
  outs : CycleOut
  /-- The fault record that 93_implementation_defined.md U1 and U2 ask of a model: the first command error of the run. -/
  violation : Option CmdError
deriving DecidableEq, Repr

/-- Reasons to stop with a fault. There is none: R106 says nothing but the two command errors goes wrong, and R104 says
that a command error does not stop the block. No step and no meaning answers with a fault (safe: nothing is left out). -/
inductive Fault where
deriving DecidableEq, Repr

/-- Reasons to refuse. -/
inductive Refusal where
  /-- Raised only by an arm of `exec` for an instruction without a meaning; no arm is left so. Safe: the machine stops. -/
  | notModelled (mnemonic : String)
deriving DecidableEq, Repr

/-- All combinational outputs at 0: what a reset cycle shows (R121) and what a cycle without tick and command shows. -/
def CycleOut.idle : CycleOut := { sliceEvt := false, rspValid := false, rspData := 0x00, cmdErr := 0b00 }

/-- The machine right after power-on: the reference parameters, every element at R29's value, no cycle presented yet, no
output shown, no fault recorded. -/
def State.reset : State :=
  { cfg := Config.reference
    block := { duty := [], plane := 0x01, cnt := 0x00, cmp := 0x01, out := 0x00, oe := 0x00, en := false }
    inputs := []
    outs := CycleOut.idle
    violation := none }

end Sys2Proof.Machine
end

