-- ==== Sys2Proof/Machine/Ops.lean ====
section
/-! DEFINITION. The named operations that every meaning is built from: the cells of the Channel Store (20_memory.md), the
command outputs, raising a command error (R104), RESET (R120), and the inputs of the current cycle. -/

namespace Sys2Proof.Machine

/-! ### The Channel Store (R32 to R39) -/

/-- What a cell holds that the list does not name: the store's reset contents (R29, R40). -/
def Memory.unlisted (c : Config) : Byte := c.dutyReset

/-- The listed value of an index, if there is one. -/
def Memory.lookup : Memory → Nat → Option Byte
  | [], _ => none
  | (b, w) :: m, a => if a = b then some w else Memory.lookup m a

/-- The byte of cell `a`; no cell exists outside 0..N-1 (R32, R39). -/
def Memory.read (c : Config) (m : Memory) (a : Nat) : Option Byte :=
  if a < c.n then some ((m.lookup a).getD (Memory.unlisted c)) else none

/-- The list with index `a` holding `v`, in canonical form: in index order, and without an entry equal to the unlisted
value `d`. -/
def Memory.put (d : Byte) : Memory → Nat → Byte → Memory
  | [], a, v => if v = d then [] else [(a, v)]
  | (b, w) :: m, a, v =>
    if a < b then (if v = d then (b, w) :: m else (a, v) :: (b, w) :: m)
    else if a = b then (if v = d then m else (a, v) :: m)
    else (b, w) :: Memory.put d m a v

/-- The store with cell `a` holding `v`; no cell exists outside 0..N-1 (R32, R39). -/
def Memory.write (c : Config) (m : Memory) (a : Nat) (v : Byte) : Option Memory :=
  if a < c.n then some (m.put (Memory.unlisted c) a v) else none

/-- Indices strictly rising from `lo` and below `n`, and no entry equal to the unlisted value `d`. -/
def Memory.canonicalFrom (d : Byte) (n : Nat) : Nat → Memory → Bool
  | _, [] => true
  | lo, (a, v) :: m => decide (lo ≤ a) && decide (a < n) && decide (v ≠ d) && Memory.canonicalFrom d n (a + 1) m

/-- The canonical form of the store: equal stores are equal lists. -/
def Memory.wf (c : Config) (m : Memory) : Bool := m.canonicalFrom (Memory.unlisted c) c.n 0

/-- All N cells at one time, in index order: what a SERVICE reads (R41). -/
def Memory.snapshot (c : Config) (m : Memory) : List Byte :=
  (List.range c.n).map fun a => (m.lookup a).getD (Memory.unlisted c)

/-- `DUTY[a]`, a synonym of `MemRead(a, 1)` (R14). -/
def dutyAt (s : State) (a : Nat) : Option Byte := Memory.read s.cfg s.block.duty a

/-- `DUTY[a] <- v`, a synonym of `MemWrite(a, 1, v)` (R14). -/
def storeDuty (s : State) (a : Nat) (v : Byte) : Option State :=
  match Memory.write s.cfg s.block.duty a v with
  | some m => some { s with block := { s.block with duty := m } }
  | none => none

/-! ### The command outputs (R31, R59, R104) -/

/-- `rsp_valid` = 0, `rsp_data` = 0x00, `cmd_err` = 0b00: a command without response and error, and a cycle without a
command (R58, R61, R104). -/
def quiet (s : State) : State :=
  { s with outs := { s.outs with rspValid := false, rspData := 0x00, cmdErr := 0b00 } }

/-- `rsp_valid` = 1, `rsp_data` = `v`, `cmd_err` = 0b00: the response of `GET_DUTY` (R59). -/
def respond (v : Byte) (s : State) : State :=
  { s with outs := { s.outs with rspValid := true, rspData := v, cmdErr := 0b00 } }

/-! ### Command errors (R104, R105) -/

/-- The code on `cmd_err` (R105). -/
def CmdError.code : CmdError → BitVec 2
  | .eOpcode => 0b01
  | .eChannel => 0b10

/-- The model's fault record keeps the first command error of the run (93_implementation_defined.md U1, U2;
notes/assumptions 3). -/
def recordViolation (e : CmdError) : Option CmdError → Option CmdError
  | none => some e
  | some f => some f

/-- `raise CmdError(code)`, the block's one exception (R104): no element of the block changes, there is no response, and
`cmd_err` carries the code for this cycle. Nothing is saved and there is no handler, so nothing is to be restored. Beside
the hardware's effect the model records the fault (U1, U2). -/
def raiseCmdError (e : CmdError) (s : State) : State :=
  { s with
    outs := { s.outs with rspValid := false, rspData := 0x00, cmdErr := e.code }
    violation := recordViolation e s.violation }

/-! ### RESET (R120, R121) -/

/-- Every element of the block at its reset value (R29, R120). -/
def resetBlock (c : Config) : Block :=
  { duty := [], plane := c.planeReset, cnt := 0x00, cmp := c.cmpReset, out := 0x00, oe := 0x00, en := false }

/-- A cycle with `rst` = 1: RESET and nothing else; every combinational output is 0 (R120, R121). The model's fault record
is no element of the block and stays (notes/assumptions 3). -/
def resetCycle (s : State) : State :=
  { s with block := resetBlock s.cfg, outs := CycleOut.idle }

/-! ### The inputs of the current cycle (R31; notes/assumptions 1) -/

/-- All inputs 0: the stimulus line `IDLE` (R56). -/
def CycleIn.idle : CycleIn := { rst := false, tick := false, cmdValid := false, cmd := 0x0000 }

/-- A command presented for one cycle: the stimulus line `CMD w` (R47, R56). -/
def CycleIn.command (w : CmdWord) : CycleIn := { rst := false, tick := false, cmdValid := true, cmd := w }

/-- The inputs of the current cycle; past the end of the list every input is 0. -/
def currentInput (s : State) : CycleIn := s.inputs.headD CycleIn.idle

/-- The state with the current cycle's inputs taken off the list. -/
def dropInput (s : State) : State := { s with inputs := s.inputs.tail }

/-- The state whose current cycle presents the command word `w` and nothing else. -/
def presentCommand (s : State) (w : CmdWord) : State := { s with inputs := CycleIn.command w :: s.inputs.tail }

end Sys2Proof.Machine
end

