-- ==== Sys2Proof/Machine/Operands.lean ====
section
/-! DEFINITION. The one operand form of a command: a direct channel index (40_channel_store_ops.md,
R49), and the operand value that INIT builds. A duty operand `val` needs no form: it is stored as given (R49, R58). -/

namespace Sys2Proof.Machine

/-- The effective address: the 4-bit channel field as an unsigned integer, no scaling and no offset (R49). -/
def channelIndex (ch : BitVec 4) : Nat := ch.toNat

/-- `2^N - 1`: bits 0..N-1 one, bits N..7 zero (R22, R61). -/
def driveMask (c : Config) : Byte := BitVec.ofNat 8 (2 ^ c.n - 1)

end Sys2Proof.Machine
end

