-- ==== Sys2Proof/Machine/ChannelStore.lean ====
section
/-! DEFINITION. The Channel Store commands SET_DUTY and GET_DUTY (40_channel_store_ops.md). -/

namespace Sys2Proof.Machine

/-- `SET_DUTY ch, val`: `DUTY[ch] <- val` if `ch < N`, else `raise CmdError(0b10)` (R58). -/
def execSetDuty (ch : BitVec 4) (val : Byte) (s : State) : Host.Outcome State Fault Refusal :=
  match storeDuty s (channelIndex ch) val with
  | some t => .next (quiet t)
  | none => .next (raiseCmdError .eChannel s)

/-- `GET_DUTY ch`: the response `DUTY[ch]` in this cycle if `ch < N`, else no response and `raise CmdError(0b10)`; no
element of the block is written (R59). -/
def execGetDuty (ch : BitVec 4) (s : State) : Host.Outcome State Fault Refusal :=
  match dutyAt s (channelIndex ch) with
  | some v => .next (respond v s)
  | none => .next (raiseCmdError .eChannel s)

end Sys2Proof.Machine
end

