-- ==== Sys2Proof/Machine/Setup.lean ====
section
/-! DEFINITION. The setup command INIT (41_engine_init.md). -/

namespace Sys2Proof.Machine

/-- `INIT`: with supported hardware `EN <- 1` and `OE <- 2^N - 1`, and nothing else is written (R61); with unsupported
hardware nothing (R63). Never an error. -/
def execInit (s : State) : Host.Outcome State Fault Refusal :=
  if s.cfg.hwSupported then .next (quiet { s with block := { s.block with en := true, oe := driveMask s.cfg } })
  else .next (quiet s)

end Sys2Proof.Machine
end

