-- ==== Sys2Proof/Machine/Dispatch.lean ====
section
/-! DEFINITION. One arm per command: which meaning runs. -/

namespace Sys2Proof.Machine

def exec (i : Instr) (s : State) : Host.Outcome State Fault Refusal :=
  match i with
  | .init => Sys2Proof.Machine.execInit s
  | .setDuty ch val => Sys2Proof.Machine.execSetDuty ch val s
  | .getDuty ch => Sys2Proof.Machine.execGetDuty ch s

end Sys2Proof.Machine
end

