-- ==== Sys2Proof/Machine/Flags.lean ====
section
/-! DEFINITION. The block has no flags and no condition codes (R25). What stands here are the one-bit conditions that the
rules compute: the timer event (R68) and the normalised channel bit (R79). -/

namespace Sys2Proof.Machine

/-- `nxt = (CNT + 1) mod 256`: an 8-bit increment, the carry discarded (R67). -/
def nextCount (b : Block) : Byte := b.cnt + 1

/-- The timer event of R68, tested at a TICK: `(CNT + 1) mod 256 = CMP`. -/
def compareMatch (b : Block) : Bool := decide (nextCount b = b.cmp)

/-- `slice_evt` outside reset: a tick while ARMED that matches (R74). -/
def serviceNow (tick : Bool) (b : Block) : Bool := b.en && tick && compareMatch b

/-- A channel's value normalised to a single bit: `((d & p) != 0) ? 1 : 0` (R79). -/
def laneBit (d p : Byte) : Byte := if d &&& p ≠ 0 then 1 else 0

end Sys2Proof.Machine
end

