-- ==== Sys2Proof/Machine/Mux.lean ====
section
/-! DEFINITION. duty_output_mux: the output word (43_duty_output_mux.md). -/

namespace Sys2Proof.Machine

/-- OR over the given cells of `bit << i`, the first cell being channel `i` (R78); shifts and ORs are on 8 bits. -/
def lanes (p : Byte) : Nat → List Byte → Byte
  | _, [] => 0x00
  | i, d :: ds => (laneBit d p <<< i) ||| lanes p (i + 1) ds

/-- `outw(D, p)` for the array `D` of N bytes: normalised (R80), or with the raw masked value of channel 0 OR-ed in
unshifted in legacy mode (R81). Total on all values of `p` (R78). -/
def outw (ch0Raw : Bool) (D : List Byte) (p : Byte) : Byte :=
  match ch0Raw, D with
  | false, D => lanes p 0 D
  | true, [] => 0x00
  | true, d0 :: ds => (d0 &&& p) ||| lanes p 1 ds

end Sys2Proof.Machine
end

