-- ==== Sys2Proof/Machine/Sequencer.lean ====
section
/-! DEFINITION. bit_plane_sequencer: the advance of the Bit-Plane Mask (44_bit_plane_sequencer.md). -/

namespace Sys2Proof.Machine

/-- `adv(p)`: an 8-bit left shift by one, and 0x01 where the shift gives zero (R86). Total on all bytes (R90). -/
def adv (p : Byte) : Byte :=
  let s := p <<< 1
  if s = 0x00 then 0x01 else s

end Sys2Proof.Machine
end

