-- ==== Sys2Proof/Machine/Timer.lean ====
section
/-! DEFINITION. timer_compare_isr_fsm: TICK, the compare event and SERVICE (42_timer_compare_isr_fsm.md). -/

namespace Sys2Proof.Machine

/-- SERVICE, the interrupt handler as one atomic update (R69): the word and the compare value both come from the old
`PLANE`. Nothing is saved on entry and there is no return operation (R112, R114). -/
def service (c : Config) (b : Block) : Block :=
  let p := b.plane
  { b with out := outw c.ch0Raw (Memory.snapshot c b.duty) p, cmp := p, plane := adv p, cnt := 0x00 }

/-- TICK: one time unit elapses while ARMED (R67). -/
def tickBlock (c : Config) (b : Block) : Block :=
  if compareMatch b then service c b else { b with cnt := nextCount b }

/-- The timer part of a cycle without reset (R73): TICK if `EN` = 1 and `tick` = 1; a tick while OFF is lost (R66). It shows
`slice_evt` (R74). -/
def timerPart (tick : Bool) (s : State) : State :=
  { s with
    block := if s.block.en && tick then tickBlock s.cfg s.block else s.block
    outs := { s.outs with sliceEvt := serviceNow tick s.block } }

end Sys2Proof.Machine
end

