-- ==== Sys2Proof/Machine/Cycle.lean ====
section
/-! DEFINITION. One clock cycle of the whole block (R73). -/

namespace Sys2Proof.Machine

/-- The command part of a cycle without reset: a presented word is always executed, in its own cycle (R47, R73); a reserved
opcode raises CmdError(0b01) (R52). With `cmd_valid` = 0 the value of `cmd` is ignored (R47). -/
def commandPart (i : CycleIn) (s : State) : Host.Outcome State Fault Refusal :=
  if i.cmdValid then
    match decode i.cmd with
    | .instr c => exec c s
    | .badOpcode => .next (raiseCmdError .eOpcode s)
  else .next (quiet s)

/-- One cycle with the inputs `i`: RESET and nothing else, or the timer part and then the command part (R73, R110). R73
has both parts read the state before the edge and states that this composition is equal to that. -/
def cycle (i : CycleIn) (s : State) : Host.Outcome State Fault Refusal :=
  if i.rst then .next (resetCycle s) else commandPart i (timerPart i.tick s)

end Sys2Proof.Machine
end

