-- ==== Sys2Proof/Machine/Step.lean ====
section
/-! DEFINITION. One step of the machine is one clock cycle: `S_(t+1) = step(S_t, in_t)` (R14, R73). -/

namespace Sys2Proof.Machine

/-- Take the current cycle's inputs off the list and run the cycle (R73; notes/assumptions 1). -/
def step (s : State) : Host.Outcome State Fault Refusal := cycle (currentInput s) (dropInput s)

/-- The state whose current cycle presents the table word `w` on the command port and nothing else (R47;
notes/assumptions 7). -/
def State.withFetchWord (s : State) (nbits w : Nat) : State := presentCommand s (BitVec.ofNat 16 (w % 2 ^ nbits))

end Sys2Proof.Machine
end

