-- ==== Sys2Proof/Machine/Stimulus.lean ====
section
/-! DEFINITION. The stimulus listing of R56 and R57: what the environment drives on the inputs, as lines, as the cycles
they stand for, and as text. It is no part of the hardware (92_eei_decisions.md D29) and `step` does not use it; it says
how a listing becomes the `inputs` of a state. -/

namespace Sys2Proof.Machine

/-- A line of a stimulus listing (R56) or a pseudo-operation (R57). `t` is the suffix `+T`. -/
inductive Line where
  /-- `INIT`, `SET_DUTY c, v` and `GET_DUTY c`, each in its canonical word. -/
  | command (i : Instr) (t : Bool)
  /-- `CMD w`: a literal command word. -/
  | cmd (w : CmdWord) (t : Bool)
  /-- `TICK n`; `TICK` is `TICK 1`. -/
  | tick (n : Nat)
  /-- `IDLE n`; `IDLE` is `IDLE 1`. -/
  | idle (n : Nat)
  /-- `RESET`. -/
  | reset
  /-- `TICKS_REAL n`. -/
  | ticksReal (n : Nat)
  /-- `SET_ALL v0, v1, ..., v(N-1)`. -/
  | setAll (vs : List Byte)
deriving DecidableEq, Repr

/-- A presented command word with the tick of the same cycle (R56). -/
def CycleIn.commandWith (w : CmdWord) (t : Bool) : CycleIn := { CycleIn.command w with tick := t }

/-- The line `TICK` (R56). -/
def CycleIn.tickOnly : CycleIn := { CycleIn.idle with tick := true }

/-- The line `RESET` (R56). -/
def CycleIn.resetOnly : CycleIn := { CycleIn.idle with rst := true }

/-- `n` repetitions of a `TICK` followed by `tickDiv - 1` times `IDLE` (R57). -/
def ticksRealCycles (tickDiv : Nat) : Nat → List CycleIn
  | 0 => []
  | n + 1 => CycleIn.tickOnly :: (List.replicate (tickDiv - 1) CycleIn.idle ++ ticksRealCycles tickDiv n)

/-- `SET_DUTY i, v` for the values in index order, the first for channel `i` (R57). -/
def setAllCycles : Nat → List Byte → List CycleIn
  | _, [] => []
  | i, v :: vs => CycleIn.command (encode (.setDuty (BitVec.ofNat 4 i) v)) :: setAllCycles (i + 1) vs

/-- The cycles a line stands for, for an environment with the given `TICK_DIV` (R56, R57). -/
def Line.cycles (tickDiv : Nat) : Line → List CycleIn
  | .command i t => [CycleIn.commandWith (encode i) t]
  | .cmd w t => [CycleIn.commandWith w t]
  | .tick n => List.replicate n CycleIn.tickOnly
  | .idle n => List.replicate n CycleIn.idle
  | .reset => [CycleIn.resetOnly]
  | .ticksReal n => ticksRealCycles tickDiv n
  | .setAll vs => setAllCycles 0 vs

/-- The cycles of a listing, line after line (R56). -/
def listingCycles (tickDiv : Nat) : List Line → List CycleIn
  | [] => []
  | l :: ls => l.cycles tickDiv ++ listingCycles tickDiv ls

/-! ### The written form (R56): blanks separate, a comma stands between operands, `;` starts a comment -/

/-- The words of a line: maximal runs of characters other than blanks and commas; a comma is a word of its own, and the
text ends at `;`. `w` is the word being read, backwards. -/
def lineWords (w : List Char) : List Char → List (List Char)
  | [] => if w = [] then [] else [w.reverse]
  | c :: cs =>
    let rest := if c = ';' then [] else lineWords [] cs
    if c = ';' ∨ c = ' ' ∨ c = '\t' ∨ c = ',' then
      (if w = [] then [] else [w.reverse]) ++ (if c = ',' then [[',']] else []) ++ rest
    else lineWords (c :: w) cs

/-- The value of a digit, hexadecimal ones in either case. -/
def digitValue (c : Char) : Option Nat :=
  if '0' ≤ c ∧ c ≤ '9' then some (c.toNat - '0'.toNat)
  else if 'a' ≤ c ∧ c ≤ 'f' then some (c.toNat - 'a'.toNat + 10)
  else if 'A' ≤ c ∧ c ≤ 'F' then some (c.toNat - 'A'.toNat + 10)
  else none

/-- The digits of a number in the given base, most significant first, after the value read so far. -/
def digitsValue (base : Nat) : Nat → List Char → Option Nat
  | acc, [] => some acc
  | acc, c :: cs =>
    match digitValue c with
    | some d => if d < base then digitsValue base (acc * base + d) cs else none
    | none => none

/-- A number: `0x` and hexadecimal digits, or decimal digits (R14, R56). -/
def numberValue : List Char → Option Nat
  | [] => none
  | '0' :: 'x' :: c :: cs => digitsValue 16 0 (c :: cs)
  | c :: cs => digitsValue 10 0 (c :: cs)

/-- The operands: numbers with a comma between two of them. -/
def operandValues : List (List Char) → Option (List Nat)
  | [] => some []
  | [w] => (numberValue w).map fun v => [v]
  | w :: c :: ws =>
    if c = [','] ∧ ws ≠ [] then
      match numberValue w, operandValues ws with
      | some v, some vs => some (v :: vs)
      | _, _ => none
    else none

/-- The words before the suffix `+T`, and whether it is there. -/
def splitTick : List (List Char) → List (List Char) × Bool
  | [] => ([], false)
  | w :: ws =>
    if w = ['+', 'T'] ∧ ws = [] then ([], true)
    else
      let r := splitTick ws
      (w :: r.1, r.2)

/-- Bytes, where every number is one. -/
def byteOperands : List Nat → Option (List Byte)
  | [] => some []
  | v :: vs =>
    match byteOperands vs with
    | some bs => if v < 256 then some (BitVec.ofNat 8 v :: bs) else none
    | none => none

/-- The line a mnemonic and its operands stand for, in a listing for `n` channels; none where the words are no line of R56
or R57, or an operand does not fit its field (R49). -/
def lineOf (n : Nat) (name : List Char) (ops : List Nat) (t : Bool) : Option Line :=
  match name, ops, t with
  | ['I', 'N', 'I', 'T'], [], t => some (.command .init t)
  | ['S', 'E', 'T', '_', 'D', 'U', 'T', 'Y'], [c, v], t =>
    if c < 16 ∧ v < 256 then some (.command (.setDuty (BitVec.ofNat 4 c) (BitVec.ofNat 8 v)) t) else none
  | ['G', 'E', 'T', '_', 'D', 'U', 'T', 'Y'], [c], t =>
    if c < 16 then some (.command (.getDuty (BitVec.ofNat 4 c)) t) else none
  | ['C', 'M', 'D'], [w], t => if w < 65536 then some (.cmd (BitVec.ofNat 16 w) t) else none
  | ['T', 'I', 'C', 'K'], [], false => some (.tick 1)
  | ['T', 'I', 'C', 'K'], [k], false => some (.tick k)
  | ['I', 'D', 'L', 'E'], [], false => some (.idle 1)
  | ['I', 'D', 'L', 'E'], [k], false => some (.idle k)
  | ['R', 'E', 'S', 'E', 'T'], [], false => some .reset
  | ['T', 'I', 'C', 'K', 'S', '_', 'R', 'E', 'A', 'L'], [k], false => some (.ticksReal k)
  | ['S', 'E', 'T', '_', 'A', 'L', 'L'], vs, false =>
    if vs.length = n then (byteOperands vs).map .setAll else none
  | _, _, _ => none

/-- The line written as text: no line where only blanks or a comment stand, none where the text is not of R56's form. -/
def parseLine (n : Nat) (text : List Char) : Option (List Line) :=
  match lineWords [] text with
  | [] => some []
  | name :: ws =>
    let r := splitTick ws
    match operandValues r.1 with
    | some ops => (lineOf n name ops r.2).map fun l => [l]
    | none => none

end Sys2Proof.Machine
end

