-- ==== Sys2Proof/Machine/Ports.lean ====
section
/-! DEFINITION. The pins of a cycle as functions of the block's state in that cycle and of the cycle's inputs (R31): a
second description of the outputs, written from the ports table alone and not from the cycle step. -/

namespace Sys2Proof.Machine

/-- The pins `out[7:0]` (R21, R31). -/
def outPins (b : Block) : Byte := b.out

/-- The pins `oe[7:0]` (R22, R31). -/
def oePins (b : Block) : Byte := b.oe

/-- The level of line `i`: `OUT[i]` where `OE[i]` = 1, and no level where the block does not drive the line (R22, R85). -/
def lineLevel (b : Block) (i : Nat) : Option Bool :=
  if b.oe.getLsbD i then some (b.out.getLsbD i) else none

/-- The combinational outputs of a cycle (R31): `slice_evt` (R74), the response of a valid `GET_DUTY` (R59), the error code
(R105), and all 0 in a reset cycle (R121). -/
def cycleOutputs (c : Config) (b : Block) (i : CycleIn) : CycleOut :=
  if i.rst then CycleOut.idle
  else
    let answer : Option Byte :=
      match i.cmdValid, decodeChecked c.n i.cmd with
      | true, .getDuty ch => Memory.read c b.duty (channelIndex ch)
      | _, _ => none
    { sliceEvt := serviceNow i.tick b
      rspValid := answer.isSome
      rspData := answer.getD 0x00
      cmdErr :=
        match i.cmdValid, decodeChecked c.n i.cmd with
        | true, .badOpcode => CmdError.eOpcode.code
        | true, .badChannel => CmdError.eChannel.code
        | _, _ => 0b00 }

end Sys2Proof.Machine
end

