-- ==== Sys2Proof/Safety.lean ====
section
/-! DEFINITION. The terms in which claims are made: the fault record of a run, runs of the machine and what is counted over
them in ticks (45_cycle_properties.md), and the invariants of the state (R27, R28, R91). -/

namespace Sys2Proof

open Machine

/-! ### Safe runs -/

/-- No fault is recorded. 93_implementation_defined.md U1: a claim about a run takes this of the run's last state; the record
is never cleared, so it then holds in every state of the run. -/
def Safe (s : State) : Prop := s.violation = none

/-! ### Runs -/

/-- The power-on state of a block with the parameters `c` (R120), with the inputs of the coming cycles. -/
def powerOn (c : Config) (ins : List CycleIn) : State :=
  { State.reset with cfg := c, block := resetBlock c, inputs := ins }

/-- The state after `k` cycles. A step always answers a next state; for the other answers the run stays where it is. -/
def after : Nat → State → State
  | 0, s => s
  | k + 1, s =>
    match step s with
    | .next t => after k t
    | .fault _ => s
    | .refused _ => s

/-- How many of the given cycles have `tick` = 1. -/
def ticksIn (ins : List CycleIn) : Nat := ins.countP (·.tick)

/-- No cycle of the list asserts `rst`. -/
def NoReset (ins : List CycleIn) : Prop := ∀ i ∈ ins, i.rst = false

/-- The next cycle's `tick`. -/
def nextTick (s : State) : Bool := (currentInput s).tick

/-- The cycle presents an `INIT` (R50, R51). -/
def presentsInit (i : CycleIn) : Bool := i.cmdValid && decide (decode i.cmd = .instr .init)

/-- The error a cycle's command makes, if it presents one and makes one (R55, R104, R121). -/
def commandError (n : Nat) (i : CycleIn) : Option CmdError :=
  match i.rst, i.cmdValid, decodeChecked n i.cmd with
  | false, true, .badOpcode => some .eOpcode
  | false, true, .badChannel => some .eChannel
  | _, _, _ => none

/-- The current cycle's command, if one is executed, is one that a producer may issue: no reserved opcode and no channel
outside 0..N-1 (R124, R125). R105 and U1: a claim about one cycle that does not speak of the error itself takes this as a
premise, so that nothing rests on what a discarded command leaves alone. -/
def InContract (s : State) : Prop := commandError s.cfg.n (currentInput s) = none

/-- The ticks, among the first `k` cycles, after which `OUT[i]` is 1: the time line `i` is high, in time units (R97). -/
def highTicks (i : Nat) : Nat → State → Nat
  | 0, _ => 0
  | k + 1, s =>
    match step s with
    | .next t => (if nextTick s && t.block.out.getLsbD i then 1 else 0) + highTicks i k t
    | .fault _ => 0
    | .refused _ => 0

/-- How many of the first `k` cycles perform a SERVICE. -/
def serviceCount : Nat → State → Nat
  | 0, _ => 0
  | k + 1, s =>
    match step s with
    | .next t => (if t.outs.sliceEvt then 1 else 0) + serviceCount k t
    | .fault _ => 0
    | .refused _ => 0

/-- L(p), the length in ticks of a slice with compare value p: p, or 256 for p = 0 (R71). -/
def sliceTicks (p : Byte) : Nat := if p = 0 then 256 else p.toNat

/-- The weight 2^k as a byte. -/
def weight (k : Nat) : Byte := BitVec.ofNat 8 (2 ^ k)

/-- T(j), the tick of the j-th SERVICE (R95). -/
def serviceTick (j : Nat) : Nat := 255 * ((j - 1) / 8) + 2 ^ ((j - 1) % 8)

/-- The next tick performs the weight-1 SERVICE that opens a modulation cycle (R96). -/
def OpensCycle (s : State) : Prop :=
  s.block.en = true ∧ s.block.plane = 0x01 ∧ compareMatch s.block = true

/-! ### Invariants -/

/-- A power of two in {1, 2, 4, ..., 128} (R18, R27). -/
def oneHot (p : Byte) : Bool := decide (p ∈ [(0x01 : Byte), 0x02, 0x04, 0x08, 0x10, 0x20, 0x40, 0x80])

/-- The counter invariant (R28): `CMP` = 0, or `CNT` < `CMP`. -/
def CounterBelow (b : Block) : Prop := b.cmp = 0 ∨ b.cnt < b.cmp

/-- The mask is one-hot; with the legacy reset value it may also still be 0 (R27, R89). -/
def MaskLegal (c : Config) (b : Block) : Prop :=
  oneHot b.plane = true ∨ (c.legacyPlaneReset = true ∧ b.plane = 0)

/-- No SERVICE has happened since reset, or `PLANE = adv(CMP)` (R91). -/
def MaskFollowsCompare (c : Config) (b : Block) : Prop :=
  (b.plane = c.planeReset ∧ b.cmp = c.cmpReset) ∨ b.plane = adv b.cmp

/-- OFF: no line is driven and the engine's registers have their reset values (R122); ARMED: the lines 0..N-1 are driven,
and the hardware is supported (R22, R23, R63). -/
def PortsLegal (c : Config) (b : Block) : Prop :=
  (b.en = false ∧ b.oe = 0 ∧ b.out = 0 ∧ b.cnt = 0 ∧ b.plane = c.planeReset ∧ b.cmp = c.cmpReset) ∨
    (b.en = true ∧ b.oe = driveMask c ∧ c.hwSupported = true)

/-- In normalised mode the output bits N..7 are 0 (R21, R82). -/
def SpareBitsLow (c : Config) (b : Block) : Prop :=
  c.ch0Raw = false → ∀ i, c.n ≤ i → b.out.getLsbD i = false

/-- The invariant of the whole state: the store is canonical, and the registers are as the rules above say. -/
structure Inv (s : State) : Prop where
  store : Memory.wf s.cfg s.block.duty = true
  mask : MaskLegal s.cfg s.block
  follows : MaskFollowsCompare s.cfg s.block
  counter : CounterBelow s.block
  ports : PortsLegal s.cfg s.block
  spare : SpareBitsLow s.cfg s.block

end Sys2Proof
end

