-- ==== Sys2Proof/WellFormed.lean ====
section
/-! DEFINITION. The operand contract of a command: "channel: index in [0,N)" (R49, R53). A command that breaks it still
decodes and still executes (it raises CmdError(0b10)); the contract says which commands a producer may issue (R124, R125). -/

namespace Sys2Proof

/-- The command meets the operand contract of the configured N: its channel, where it has one, is below N (R49, R53).
`INIT` never checks `ch` (R53). -/
def Instr.wf (c : Config) : Instr → Bool
  | .init => true
  | .setDuty ch _ => decide (ch.toNat < c.n)
  | .getDuty ch => decide (ch.toNat < c.n)

end Sys2Proof
end

