-- ==== Sys2Proof/Certificates/Slice0/Obligations.lean ====
section
/-! DEFINITION. The statements for the provers. Each names the rule of spec/ it formalises. R105 and
93_implementation_defined.md U1: a statement that does not speak of a command error itself takes as a premise that none is
made: a valid operand for a single command, `InContract` for a single cycle, `Safe` of the last state for a run. -/

open Sys2Proof Sys2Proof.Machine

/-! ### Encoding (30_encoding.md) -/

/-- R50, R51: the canonical word of every command decodes to that command, at every value of its operands. -/
def Obligations.DecodeEncodeRoundTrip : Prop := ∀ i : Instr, decode (encode i) = .instr i

/-- R50: a word selects a row iff `(w & mask) = match`, the operands are its fields, and the rows with `op` 0x0 and
0x4..0xF are reserved; the canonical words are those of the map. -/
def Obligations.OpcodeMapByMaskAndMatch : Prop :=
  (∀ w : CmdWord, decode w = .instr .init ↔ w &&& 0xF000 = 0x1000) ∧
  (∀ (w : CmdWord) (ch : BitVec 4) (val : Byte), decode w = .instr (.setDuty ch val) ↔
    w &&& 0xF000 = 0x2000 ∧ ch.toNat = w.toNat / 256 % 16 ∧ val.toNat = w.toNat % 256) ∧
  (∀ (w : CmdWord) (ch : BitVec 4), decode w = .instr (.getDuty ch) ↔
    w &&& 0xF000 = 0x3000 ∧ ch.toNat = w.toNat / 256 % 16) ∧
  (∀ w : CmdWord, decode w = .badOpcode ↔ w.toNat / 4096 = 0 ∨ 4 ≤ w.toNat / 4096) ∧
  encode .init = 0x1000 ∧
  (∀ (ch : BitVec 4) (val : Byte), (encode (.setDuty ch val)).toNat = 0x2000 + ch.toNat * 256 + val.toNat) ∧
  (∀ ch : BitVec 4, (encode (.getDuty ch)).toNat = 0x3000 + ch.toNat * 256)

/-- R51: the decoder ignores the bits an operation does not use, and the canonical word has zeros there. -/
def Obligations.UnusedFieldsAreIgnored : Prop :=
  (∀ w x : CmdWord, opField w = 0x1#4 → opField x = 0x1#4 → decode w = .instr .init ∧ decode x = decode w) ∧
  (∀ w x : CmdWord, opField w = 0x3#4 → opField x = 0x3#4 → chField x = chField w → decode x = decode w) ∧
  (encode .init).toNat % 4096 = 0 ∧ (∀ ch : BitVec 4, (encode (.getDuty ch)).toNat % 256 = 0) ∧
  decode 0x1ABC = .instr .init ∧ decode 0x32FF = .instr (.getDuty 2)

/-- R48: `op = cmd[15:12]`, `ch = cmd[11:8]`, `val = cmd[7:0]`, as numbers. -/
def Obligations.FieldsOfTheCommandWord : Prop :=
  ∀ w : CmdWord, (opField w).toNat = w.toNat / 4096 ∧ (chField w).toNat = w.toNat / 256 % 16 ∧
    (valField w).toNat = w.toNat % 256

/-- R55: the decoder's value on every word, the opcode examined before the channel; `BadOpcode` executes as R52 and
`BadChannel` as R53, and the other results execute as their commands. -/
def Obligations.DecodingAlgorithmAndItsExecution : Prop :=
  (∀ (n : Nat) (w : CmdWord), decodeChecked n w =
    if w.toNat / 4096 = 1 then .init
    else if w.toNat / 4096 = 2 then
      if w.toNat / 256 % 16 < n then .setDuty (BitVec.ofNat 4 (w.toNat / 256)) (BitVec.ofNat 8 w.toNat) else .badChannel
    else if w.toNat / 4096 = 3 then
      if w.toNat / 256 % 16 < n then .getDuty (BitVec.ofNat 4 (w.toNat / 256)) else .badChannel
    else .badOpcode) ∧
  (∀ (i : CycleIn) (s : State), i.cmdValid = true →
    match decodeChecked s.cfg.n i.cmd with
    | .init => commandPart i s = exec .init s
    | .setDuty ch val => commandPart i s = exec (.setDuty ch val) s
    | .getDuty ch => commandPart i s = exec (.getDuty ch) s
    | .badChannel => ∃ t, commandPart i s = .next t ∧ t.block = s.block ∧
        t.outs = { s.outs with rspValid := false, rspData := 0x00, cmdErr := 0b10 }
    | .badOpcode => ∃ t, commandPart i s = .next t ∧ t.block = s.block ∧
        t.outs = { s.outs with rspValid := false, rspData := 0x00, cmdErr := 0b01 })

/-- 30_encoding.md section 9: the spec's example words, one of each command and two reserved ones. -/
def Obligations.ExampleWordsOfTheSpec : Prop :=
  decode 0x1000 = .instr .init ∧ decode 0x20FF = .instr (.setDuty 0 255) ∧ decode 0x2440 = .instr (.setDuty 4 64) ∧
  decode 0x3200 = .instr (.getDuty 2) ∧ decode 0x7000 = .badOpcode ∧ decode 0x0000 = .badOpcode ∧
  decodeChecked 5 0x2555 = .badChannel

/-! ### The commands (40_channel_store_ops.md, 41_engine_init.md) -/

/-- INIT: with supported hardware `EN <- 1` and `OE <- 2^N - 1` and nothing else; otherwise nothing; no error. The
model's other fields are as before, so this is also the command's frame. -/
def Obligations.InitEffect : Prop :=
  ∀ s : State, exec .init s = .next { s with
    block :=
      if s.cfg.hwSupported then { s.block with en := true, oe := BitVec.ofNat 8 (2 ^ s.cfg.n - 1) } else s.block
    outs := { s.outs with rspValid := false, rspData := 0x00, cmdErr := 0b00 } }

/-- R62: `INIT(INIT(S)) = INIT(S)`; where EN = 1 and OE = 2^N - 1, INIT is the identity on the block; no INIT writes
PLANE, CNT, CMP or OUT; reset is what establishes PLANE = 1. -/
def Obligations.InitIsIdempotent : Prop :=
  (∀ s : State, ∃ t, exec .init s = .next t ∧ exec .init t = .next t ∧
    t.block.plane = s.block.plane ∧ t.block.cnt = s.block.cnt ∧ t.block.cmp = s.block.cmp ∧ t.block.out = s.block.out ∧
    (s.block.en = true → s.block.oe = BitVec.ofNat 8 (2 ^ s.cfg.n - 1) → t.block = s.block)) ∧
  State.reset.block.plane = 0x01

/-- R63: with HW_SUPPORTED = false, from power-on, in every run that records no fault, EN stays 0, no tick is counted,
no SERVICE occurs, OUT and OE stay 0x00; INIT changes no element and raises no error; the two store commands keep
working. -/
def Obligations.UnsupportedHardwareStaysOff : Prop :=
  ∀ (c : Config) (ins : List CycleIn) (k : Nat), c.hwSupported = false → Safe (after k (powerOn c ins)) →
    (after k (powerOn c ins)).block.en = false ∧ (after k (powerOn c ins)).block.cnt = 0x00 ∧
    (after k (powerOn c ins)).block.out = 0x00 ∧ (after k (powerOn c ins)).block.oe = 0x00 ∧
    (after k (powerOn c ins)).outs.sliceEvt = false ∧
    (∃ t, exec .init (after k (powerOn c ins)) = .next t ∧ t.block = (after k (powerOn c ins)).block ∧
      t.outs.cmdErr = 0b00) ∧
    (∀ (ch : BitVec 4) (val : Byte), ch.toNat < c.n → ∃ t, exec (.setDuty ch val) (after k (powerOn c ins)) = .next t ∧
      dutyAt t (channelIndex ch) = some val) ∧
    (∀ ch : BitVec 4, ch.toNat < c.n → ∃ t, exec (.getDuty ch) (after k (powerOn c ins)) = .next t ∧
      t.outs.rspValid = true ∧ dutyAt (after k (powerOn c ins)) (channelIndex ch) = some t.outs.rspData)

/-- SET_DUTY on a channel below N: the cell holds the value, every other cell reads as before, the store stays
canonical, and every other element of the block and every other field is as before. Storing the value a cell holds
changes nothing. -/
def Obligations.SetDutyStoresOneCell : Prop :=
  ∀ (s : State) (ch : BitVec 4) (val : Byte), Memory.wf s.cfg s.block.duty = true → ch.toNat < s.cfg.n →
    ∃ m : Memory, exec (.setDuty ch val) s = .next { s with
        block := { s.block with duty := m }
        outs := { s.outs with rspValid := false, rspData := 0x00, cmdErr := 0b00 } } ∧
      Memory.wf s.cfg m = true ∧ Memory.read s.cfg m (channelIndex ch) = some val ∧
      (∀ a, a ≠ channelIndex ch → Memory.read s.cfg m a = Memory.read s.cfg s.block.duty a) ∧
      (dutyAt s (channelIndex ch) = some val → m = s.block.duty)

/-- GET_DUTY on a channel below N: the response is the cell's byte in this state and no element of the block changes;
after reset it is DUTY_RESET. -/
def Obligations.GetDutyResponds : Prop :=
  (∀ (s : State) (ch : BitVec 4), ch.toNat < s.cfg.n →
    ∃ v, dutyAt s (channelIndex ch) = some v ∧ exec (.getDuty ch) s = .next { s with
      outs := { s.outs with rspValid := true, rspData := v, cmdErr := 0b00 } }) ∧
  (∀ (c : Config) (ins : List CycleIn) (ch : BitVec 4), ch.toNat < c.n →
    ∃ t, exec (.getDuty ch) (powerOn c ins) = .next t ∧ t.outs.rspValid = true ∧ t.outs.rspData = c.dutyReset)

/-- R53: SET_DUTY and GET_DUTY with `ch >= N` change no state of the block, give no response and raise CmdError(0b10);
INIT never checks `ch`. -/
def Obligations.OutOfRangeChannelRaises : Prop :=
  (∀ (s : State) (ch : BitVec 4) (val : Byte), s.cfg.n ≤ ch.toNat →
    ∃ t, exec (.setDuty ch val) s = .next t ∧ exec (.getDuty ch) s = .next t ∧ t.block = s.block ∧
      t.outs = { s.outs with rspValid := false, rspData := 0x00, cmdErr := 0b10 } ∧ t.cfg = s.cfg ∧
      t.inputs = s.inputs) ∧
  (∀ w : CmdWord, opField w = 0x1#4 → decode w = .instr .init)

/-- R60: the laws of the Channel Store. Reads are the responses of GET_DUTY; (c) is equality of whole states; TICK,
SERVICE and INIT change no cell; RESET returns every cell to DUTY_RESET. -/
def Obligations.ChannelStoreLaws : Prop :=
  (∀ (s : State) (ch : BitVec 4) (v w : Byte), Memory.wf s.cfg s.block.duty = true → ch.toNat < s.cfg.n →
    ∃ t, exec (.setDuty ch v) s = .next t ∧
      (∃ u, exec (.getDuty ch) t = .next u ∧ u.outs.rspValid = true ∧ u.outs.rspData = v) ∧
      (∀ j : BitVec 4, j ≠ ch → j.toNat < s.cfg.n → ∃ u u', exec (.getDuty j) t = .next u ∧
        exec (.getDuty j) s = .next u' ∧ u.outs.rspData = u'.outs.rspData) ∧
      exec (.setDuty ch w) t = exec (.setDuty ch w) s) ∧
  (∀ (s t : State) (a : Nat), exec .init s = .next t → dutyAt t a = dutyAt s a) ∧
  (∀ (tick : Bool) (s : State) (a : Nat), dutyAt (timerPart tick s) a = dutyAt s a) ∧
  (∀ (c : Config) (b : Block), (service c b).duty = b.duty) ∧
  (∀ (s t : State) (a : Nat), (currentInput s).rst = true → step s = .next t → a < s.cfg.n →
    dutyAt t a = some s.cfg.dutyReset)

/-- R38, for every cell there is: GET_DUTY changes no state of the block, and the reads of a SERVICE change no cell; two
reads of a cell in states in which it was not written between answer alike; writing a value twice leaves the state that
writing it once leaves. -/
def Obligations.ReadsAndWritesAreIdempotent : Prop :=
  (∀ (s : State) (ch : BitVec 4), ch.toNat < s.cfg.n → ∃ t, exec (.getDuty ch) s = .next t ∧ t.block = s.block ∧
    ∃ u, exec (.getDuty ch) t = .next u ∧ u.outs = t.outs) ∧
  (∀ (s t : State) (ch : BitVec 4), ch.toNat < s.cfg.n → t.cfg = s.cfg →
    dutyAt t (channelIndex ch) = dutyAt s (channelIndex ch) →
    ∃ u v, exec (.getDuty ch) s = .next u ∧ exec (.getDuty ch) t = .next v ∧ u.outs.rspValid = v.outs.rspValid ∧
      u.outs.rspData = v.outs.rspData) ∧
  (∀ (c : Config) (b : Block), (service c b).duty = b.duty) ∧
  (∀ (s : State) (ch : BitVec 4) (v : Byte), Memory.wf s.cfg s.block.duty = true → ch.toNat < s.cfg.n →
    ∃ t, exec (.setDuty ch v) s = .next t ∧ exec (.setDuty ch v) t = .next t)

/-- What each command with a valid operand leaves unchanged (the fault record among it, which is the model's own:
notes/assumptions 3). INIT and GET_DUTY store nothing, so every cell reads as before; SET_DUTY stores to the cell
`channelIndex ch` alone. INIT changes no element but EN and OE, GET_DUTY none, SET_DUTY none but the store. A channel
outside 0..N-1 has `OutOfRangeChannelRaises`. -/
def Obligations.FrameOfEachCommand : Prop :=
  (∀ s t : State, exec .init s = .next t → (∀ a, dutyAt t a = dutyAt s a) ∧
    { t.block with en := s.block.en, oe := s.block.oe } = s.block ∧ t.cfg = s.cfg ∧ t.inputs = s.inputs ∧
    t.violation = s.violation ∧ t.outs.sliceEvt = s.outs.sliceEvt) ∧
  (∀ (s t : State) (ch : BitVec 4), ch.toNat < s.cfg.n → exec (.getDuty ch) s = .next t →
    (∀ a, dutyAt t a = dutyAt s a) ∧ t.block = s.block ∧ t.cfg = s.cfg ∧ t.inputs = s.inputs ∧
    t.violation = s.violation ∧ t.outs.sliceEvt = s.outs.sliceEvt) ∧
  (∀ (s t : State) (ch : BitVec 4) (val : Byte), ch.toNat < s.cfg.n → exec (.setDuty ch val) s = .next t →
    (∀ a, a ≠ channelIndex ch → dutyAt t a = dutyAt s a) ∧
    { t.block with duty := s.block.duty } = s.block ∧ t.cfg = s.cfg ∧ t.inputs = s.inputs ∧
    t.violation = s.violation ∧ t.outs.sliceEvt = s.outs.sliceEvt)

/-- R24, R92, R116: no command with a valid operand writes or reads PLANE, CNT, CMP or OUT: whatever they hold, the
command's effect on everything else is the same and they come out as they went in. Only INIT writes EN and OE. -/
def Obligations.CommandsNeverReachEngineRegisters : Prop :=
  ∀ (i : Instr) (s t : State) (p n c o : Byte), i.wf s.cfg = true → exec i s = .next t →
    exec i { s with block := { s.block with plane := p, cnt := n, cmp := c, out := o } } =
      .next { t with block := { t.block with plane := p, cnt := n, cmp := c, out := o } } ∧
    t.block.plane = s.block.plane ∧ t.block.cnt = s.block.cnt ∧ t.block.cmp = s.block.cmp ∧ t.block.out = s.block.out ∧
    (i ≠ .init → t.block.en = s.block.en ∧ t.block.oe = s.block.oe)

/-! ### Command errors (60_exceptions.md) -/

/-- R52: a reserved opcode changes no state of the block and raises CmdError(0b01), whatever `ch` and `val` are; so the
all-zero word is an error, and the no-operation is `cmd_valid` = 0. -/
def Obligations.ReservedOpcodeRaises : Prop :=
  (∀ (i : CycleIn) (s : State), i.cmdValid = true → (opField i.cmd = 0x0#4 ∨ 4 ≤ (opField i.cmd).toNat) →
    ∃ t, commandPart i s = .next t ∧ t.block = s.block ∧
      t.outs = { s.outs with rspValid := false, rspData := 0x00, cmdErr := 0b01 } ∧ t.cfg = s.cfg ∧
      t.inputs = s.inputs) ∧
  opField 0x0000 = 0x0#4 ∧
  (∀ (i : CycleIn) (s : State), i.cmdValid = false → commandPart i s = .next { s with
    outs := { s.outs with rspValid := false, rspData := 0x00, cmdErr := 0b00 } })

/-- R104: a command that raises an error changes nothing in the block but what the timer part of the cycle changes,
gives no response and shows its code in this cycle; in every other cycle `cmd_err` = 0b00; the block keeps no record of
it and keeps running. -/
def Obligations.CommandErrorIsDiscardedAndShown : Prop :=
  ∀ s : State, ∃ t, step s = .next t ∧ (∃ u, step t = .next u) ∧
    (∀ e, commandError s.cfg.n (currentInput s) = some e →
      t.block = (if s.block.en && nextTick s then tickBlock s.cfg s.block else s.block) ∧
      t.outs = { sliceEvt := serviceNow (nextTick s) s.block, rspValid := false, rspData := 0x00,
                 cmdErr := match e with | .eOpcode => 0b01 | .eChannel => 0b10 }) ∧
    (commandError s.cfg.n (currentInput s) = none → t.outs.cmdErr = 0b00)

/-- 93_implementation_defined.md U1 and U2 ask a model to record a fault; its form is the model's choice
(notes/assumptions 3): after every step the record is the first command error of the run, and nothing clears it. -/
def Obligations.FaultRecordIsTheFirstError : Prop :=
  ∀ s : State, ∃ t, step s = .next t ∧ t.violation =
    match s.violation with
    | some e => some e
    | none => commandError s.cfg.n (currentInput s)

/-- R105, R111: the causes and their codes, complete: the opcode is checked before the channel, the channel only for
opcodes 0x2 and 0x3, one error at most, and 0b11 never. -/
def Obligations.ErrorCausesAndCodes : Prop :=
  ∀ s : State, ∃ t, step s = .next t ∧ t.outs.cmdErr ≠ 0b11 ∧
    t.outs.cmdErr =
      if (currentInput s).rst = false ∧ (currentInput s).cmdValid = true then
        (if opField (currentInput s).cmd = 0x0#4 ∨ 4 ≤ (opField (currentInput s).cmd).toNat then 0b01
         else if (opField (currentInput s).cmd = 0x2#4 ∨ opField (currentInput s).cmd = 0x3#4) ∧
             s.cfg.n ≤ (chField (currentInput s).cmd).toNat then 0b10
         else 0b00)
      else 0b00

/-- R106: nothing else faults: every step answers a next state, and an error is shown only for a presented reserved
opcode or out-of-range channel. -/
def Obligations.NothingElseFaults : Prop :=
  ∀ s : State, ∃ t, step s = .next t ∧
    (t.outs.cmdErr ≠ 0b00 →
      (currentInput s).rst = false ∧ (currentInput s).cmdValid = true ∧
      (decodeChecked s.cfg.n (currentInput s).cmd = .badOpcode ∨
        decodeChecked s.cfg.n (currentInput s).cmd = .badChannel))

/-! ### The cycle step, reset and the FSM (42_timer_compare_isr_fsm.md, 70_reset_and_hazards.md) -/

/-- R47, R73: a cycle without reset that presents a word of the opcode map runs that command, on the state after the
timer part; and a table word placed by `withFetchWord` runs as the next cycle's command, with no tick beside it. -/
def Obligations.StepRunsDecodedInstruction : Prop :=
  (∀ (s : State) (i : Instr), (currentInput s).rst = false → (currentInput s).cmdValid = true →
    decode (currentInput s).cmd = .instr i → step s = exec i (timerPart (nextTick s) (dropInput s))) ∧
  (∀ (s : State) (w : Nat) (i : Instr), w < 65536 → decodeTableWord 16 w = some i →
    step (s.withFetchWord 16 w) = exec i (timerPart false (dropInput s))) ∧
  (∀ s : State, timerPart false s = { s with outs := { s.outs with sliceEvt := false } })

/-- R73: the whole cycle. With `rst` = 1, RESET. Otherwise both parts read the state before the edge: CNT, CMP, PLANE
and OUT come from the timer part of the old state, EN, OE and DUTY from the command part of the old state. A cycle with
no reset, no command and no counted tick changes nothing. -/
def Obligations.CycleReadsTheOldState : Prop :=
  ∀ s : State, ∃ t, step s = .next t ∧
    ((currentInput s).rst = true → t.block = resetBlock s.cfg) ∧
    ((currentInput s).rst = false →
      ∃ u, commandPart (currentInput s) (dropInput s) = .next u ∧
        t.block = { (if s.block.en && nextTick s then tickBlock s.cfg s.block else s.block) with
          duty := u.block.duty, oe := u.block.oe, en := u.block.en }) ∧
    ((currentInput s).rst = false → (currentInput s).cmdValid = false → (nextTick s = false ∨ s.block.en = false) →
      t.block = s.block)

/-- R120: after a cycle with `rst` = 1 every element has its reset value; the power-on state is the same; RESET again
changes nothing more. -/
def Obligations.ResetEstablishesEveryValue : Prop :=
  ∀ s : State, (currentInput s).rst = true → ∃ t, step s = .next t ∧
    (∀ a, a < s.cfg.n → dutyAt t a = some s.cfg.dutyReset) ∧ t.block.plane = s.cfg.planeReset ∧ t.block.cnt = 0x00 ∧
    t.block.cmp = s.cfg.cmpReset ∧ t.block.out = 0x00 ∧ t.block.oe = 0x00 ∧ t.block.en = false ∧
    (∀ ins, (powerOn s.cfg ins).block = t.block) ∧
    (s.cfg = Config.reference → State.reset.block = t.block ∧ t.block.plane = 0x01 ∧ t.block.cmp = 0x01 ∧
      ∀ a, a < 5 → dutyAt t a = some 0x00) ∧
    ((currentInput t).rst = true → ∃ u, step t = .next u ∧ u.block = t.block)

/-- R121: in a cycle with `rst` = 1 tick and command are ignored: they change nothing of the next state, all four
combinational outputs are 0. -/
def Obligations.ResetDominates : Prop :=
  ∀ (s : State) (tick valid : Bool) (w : CmdWord), (currentInput s).rst = true →
    step { s with inputs := { rst := true, tick := tick, cmdValid := valid, cmd := w } :: s.inputs.tail } = step s ∧
    ∃ t, step s = .next t ∧ t.outs = { sliceEvt := false, rspValid := false, rspData := 0x00, cmdErr := 0b00 }

/-- R29: the reset values, for every admitted combination of parameters and for the reference ones. -/
def Obligations.PowerOnValues : Prop :=
  (∀ (c : Config) (ins : List CycleIn),
    (∀ a, dutyAt (powerOn c ins) a = if a < c.n then some c.dutyReset else none) ∧
    (powerOn c ins).block.plane = c.planeReset ∧ (powerOn c ins).block.cnt = 0x00 ∧
    (powerOn c ins).block.cmp = c.cmpReset ∧ (powerOn c ins).block.out = 0x00 ∧ (powerOn c ins).block.oe = 0x00 ∧
    (powerOn c ins).block.en = false) ∧
  (∀ a, dutyAt State.reset a = if a < 5 then some 0x00 else none) ∧ State.reset.block.plane = 0x01 ∧
  State.reset.block.cnt = 0x00 ∧ State.reset.block.cmp = 0x01 ∧ State.reset.block.out = 0x00 ∧
  State.reset.block.oe = 0x00 ∧ State.reset.block.en = false

/-- R66: while EN = 0 a tick, beside any command without error, changes no state and is not remembered: the cycle with
the tick and the cycle without it give the same next state, in which `slice_evt` = 0 and CNT, CMP, PLANE and OUT are as
before. -/
def Obligations.TicksWhileOffAreLost : Prop :=
  ∀ (s : State) (valid : Bool) (w : CmdWord) (rest : List CycleIn), s.block.en = false →
    commandError s.cfg.n { rst := false, tick := true, cmdValid := valid, cmd := w } = none →
    step { s with inputs := { rst := false, tick := true, cmdValid := valid, cmd := w } :: rest } =
      step { s with inputs := { rst := false, tick := false, cmdValid := valid, cmd := w } :: rest } ∧
    ∃ t, step { s with inputs := { rst := false, tick := true, cmdValid := valid, cmd := w } :: rest } = .next t ∧
      t.outs.sliceEvt = false ∧ t.block.cnt = s.block.cnt ∧ t.block.cmp = s.block.cmp ∧
      t.block.plane = s.block.plane ∧ t.block.out = s.block.out

/-- R65, in a cycle without a command error: the two states of the FSM. EN is cleared by reset alone and set by INIT
with supported hardware alone; OFF: ticks ignored, CNT holds, no SERVICE; ARMED: every tick is a TICK, and a SERVICE
stays in ARMED. -/
def Obligations.FsmStatesAndTransitions : Prop :=
  ∀ s : State, InContract s → ∃ t, step s = .next t ∧
    t.block.en = (!(currentInput s).rst && (s.block.en || (s.cfg.hwSupported && presentsInit (currentInput s)))) ∧
    ((currentInput s).rst = false → s.block.en = false → t.block.cnt = s.block.cnt ∧ t.outs.sliceEvt = false) ∧
    ((currentInput s).rst = false → s.block.en = true → nextTick s = true →
      t.block.cnt = (tickBlock s.cfg s.block).cnt ∧ t.block.cmp = (tickBlock s.cfg s.block).cmp ∧
      t.block.plane = (tickBlock s.cfg s.block).plane ∧ t.block.out = (tickBlock s.cfg s.block).out ∧
      t.block.en = true)

/-- R67, R69, in a cycle without a command error (with one, `CommandErrorIsDiscardedAndShown` says that the timer part
is the same): a TICK without match increments CNT and changes nothing else; a TICK with `(CNT + 1) mod 256 = CMP` is a
SERVICE: OUT is the word for the old PLANE, CMP the old PLANE, PLANE its advance, CNT 0; without a TICK nothing of this
changes. The timer part writes no other element: with no command presented DUTY, OE and EN are as before. -/
def Obligations.TickAndService : Prop :=
  ∀ s : State, InContract s → (currentInput s).rst = false → ∃ t, step s = .next t ∧
    (s.block.en = true → nextTick s = true → (s.block.cnt.toNat + 1) % 256 = s.block.cmp.toNat →
      t.block.out = outw s.cfg.ch0Raw (Memory.snapshot s.cfg s.block.duty) s.block.plane ∧
      t.block.cmp = s.block.plane ∧ t.block.plane = adv s.block.plane ∧ t.block.cnt = 0x00 ∧ t.outs.sliceEvt = true) ∧
    (s.block.en = true → nextTick s = true → (s.block.cnt.toNat + 1) % 256 ≠ s.block.cmp.toNat →
      t.block.cnt.toNat = (s.block.cnt.toNat + 1) % 256 ∧ t.block.cmp = s.block.cmp ∧
      t.block.plane = s.block.plane ∧ t.block.out = s.block.out ∧ t.outs.sliceEvt = false) ∧
    ((s.block.en = false ∨ nextTick s = false) →
      t.block.cnt = s.block.cnt ∧ t.block.cmp = s.block.cmp ∧ t.block.plane = s.block.plane ∧
      t.block.out = s.block.out ∧ t.outs.sliceEvt = false) ∧
    ((currentInput s).cmdValid = false →
      t.block.duty = s.block.duty ∧ t.block.oe = s.block.oe ∧ t.block.en = s.block.en)

/-- R74, in a cycle without a command error: `slice_evt` is 1 iff the cycle performs a SERVICE; the new OUT is then on
the pins of the next cycle; and it feeds nothing: no step depends on the outputs of the cycle before. -/
def Obligations.SliceEventMarksService : Prop :=
  ∀ s : State, (InContract s → ∃ t, step s = .next t ∧
      (t.outs.sliceEvt = true ↔ (currentInput s).rst = false ∧ s.block.en = true ∧ nextTick s = true ∧
        (s.block.cnt.toNat + 1) % 256 = s.block.cmp.toNat) ∧
      (t.outs.sliceEvt = true →
        outPins t.block = outw s.cfg.ch0Raw (Memory.snapshot s.cfg s.block.duty) s.block.plane)) ∧
    ∀ o : CycleOut, step { s with outs := o } = step s

/-- R31: the combinational outputs that a step shows are the ports table's functions of the cycle's state and inputs. -/
def Obligations.OutputsMatchThePortTable : Prop :=
  ∀ s : State, ∃ t, step s = .next t ∧ t.outs = cycleOutputs s.cfg s.block (currentInput s)

/-- R85, in a cycle without a command error: OUT is written once per SERVICE, with the word, and at no other time but
reset; the pins show OUT, and a line is driven iff its OE bit is 1. -/
def Obligations.OutIsWrittenOnlyByService : Prop :=
  ∀ s : State, InContract s → ∃ t, step s = .next t ∧
    (t.outs.sliceEvt = true → t.block.out = outw s.cfg.ch0Raw (Memory.snapshot s.cfg s.block.duty) s.block.plane) ∧
    ((currentInput s).rst = false → t.outs.sliceEvt = false → t.block.out = s.block.out) ∧
    ((currentInput s).rst = true → t.block.out = 0x00) ∧
    (∀ b : Block, outPins b = b.out ∧ ∀ i, (lineLevel b i = none ↔ b.oe.getLsbD i = false) ∧
      (b.oe.getLsbD i = true → lineLevel b i = some (b.out.getLsbD i)))

/-- R42: a SET_DUTY is not seen by a SERVICE of its own cycle and is seen by the next cycle's: the store then reads as
the old one with that one cell replaced; the cell keeps the value, for every later SERVICE to see, until a reset or
another store to it, in cycles without a command error; OUT is not recomputed by the write. -/
def Obligations.WriteIsSeenFromTheNextCycle : Prop :=
  ∀ (s : State) (ch : BitVec 4) (val : Byte), Memory.wf s.cfg s.block.duty = true → ch.toNat < s.cfg.n →
    (currentInput s).rst = false → (currentInput s).cmdValid = true →
    decode (currentInput s).cmd = .instr (.setDuty ch val) →
    ∃ t, step s = .next t ∧ dutyAt t (channelIndex ch) = some val ∧
      t.block.out = (if serviceNow (nextTick s) s.block then
          outw s.cfg.ch0Raw (Memory.snapshot s.cfg s.block.duty) s.block.plane else s.block.out) ∧
      Memory.snapshot t.cfg t.block.duty = (Memory.snapshot s.cfg s.block.duty).set (channelIndex ch) val ∧
      (InContract t → ∃ u, step t = .next u ∧ (u.outs.sliceEvt = true → u.block.out =
        outw s.cfg.ch0Raw ((Memory.snapshot s.cfg s.block.duty).set (channelIndex ch) val) t.block.plane)) ∧
      ∀ k, (∀ i ∈ t.inputs.take k, i.rst = false ∧ commandError s.cfg.n i = none ∧
          (i.cmdValid = true → ∀ v, decode i.cmd ≠ .instr (.setDuty ch v))) →
        dutyAt (after k t) (channelIndex ch) = some val

/-- R36, R43: in a cycle without a command error a producer can change one cell per cycle. -/
def Obligations.OneCellPerCycle : Prop :=
  ∀ s : State, InContract s → (currentInput s).rst = false → ∃ t, step s = .next t ∧
    ∀ a b, dutyAt t a ≠ dutyAt s a → dutyAt t b ≠ dutyAt s b → a = b

/-- R125: no step changes the parameters; the inputs are taken one cycle at a time; no command without error stops the
engine, and replacing one by another without error triggers no SERVICE, prevents none and changes nothing of PLANE, CNT,
CMP and OUT. -/
def Obligations.WhatNoProducerCanDo : Prop :=
  ∀ s : State, ∃ t, step s = .next t ∧ t.cfg = s.cfg ∧ t.inputs = s.inputs.tail ∧
    (InContract s → (currentInput s).rst = false → s.block.en = true → t.block.en = true) ∧
    (∀ (valid : Bool) (w : CmdWord), InContract s →
      commandError s.cfg.n { currentInput s with cmdValid := valid, cmd := w } = none → ∃ u,
      step { s with inputs := { currentInput s with cmdValid := valid, cmd := w } :: s.inputs.tail } = .next u ∧
      u.outs.sliceEvt = t.outs.sliceEvt ∧ u.block.plane = t.block.plane ∧ u.block.cnt = t.block.cnt ∧
      u.block.cmp = t.block.cmp ∧ u.block.out = t.block.out)

/-- R133: a SET_DUTY may be followed in the next cycle by a GET_DUTY of the same channel, which returns the new value,
whatever the ticks are. -/
def Obligations.StoreThenReadInTheNextCycle : Prop :=
  ∀ (s : State) (i j : CycleIn) (rest : List CycleIn) (ch : BitVec 4) (val : Byte),
    s.inputs = i :: j :: rest → Memory.wf s.cfg s.block.duty = true → ch.toNat < s.cfg.n →
    i.rst = false → i.cmdValid = true → decode i.cmd = .instr (.setDuty ch val) →
    j.rst = false → j.cmdValid = true → decode j.cmd = .instr (.getDuty ch) →
    (after 2 s).outs.rspValid = true ∧ (after 2 s).outs.rspData = val ∧ (after 2 s).outs.cmdErr = 0b00 ∧
    (after 2 s).inputs = rest

/-! ### duty_output_mux (43_duty_output_mux.md) -/

/-- R79: the AND normalised to one bit: 1 if any bit of the AND is set, else 0; for a one-hot mask 2^k the bit k of the
value; 0 for the mask 0. -/
def Obligations.ChannelEvaluation : Prop :=
  ∀ d p : Byte, (laneBit d p = 0 ∨ laneBit d p = 1) ∧
    (laneBit d p = 1 ↔ ∃ k, k < 8 ∧ d.getLsbD k = true ∧ p.getLsbD k = true) ∧
    (∀ k, k < 8 → (laneBit d (weight k) = 1 ↔ d.getLsbD k = true)) ∧ laneBit d 0x00 = 0

/-- R78, R80: in normalised mode bit i of the word is channel i's evaluated bit, for every channel, every mask and every
number of channels; beyond the channels the bits are 0. -/
def Obligations.NormalisedOutputWord : Prop :=
  ∀ (D : List Byte) (p : Byte) (i : Nat), i < 8 →
    (outw false D p).getLsbD i =
      match D[i]? with
      | some d => decide (d &&& p ≠ 0)
      | none => false

/-- R81, which is this spec's own reading of the source (D20, U4; notes/assumptions 9): in legacy mode, with the mask
2^k: line 0 has channel 0's bit 0 for k = 0 and is low otherwise; bit k has channel 0's bit k OR-ed in, or alone beyond
the channels; every other channel line has its own bit. -/
def Obligations.LegacyOutputWord : Prop :=
  ∀ (d0 : Byte) (ds : List Byte) (k : Nat), k < 8 → ds.length < 8 →
    (outw true (d0 :: ds) (weight k)).getLsbD 0 = (decide (k = 0) && d0.getLsbD 0) ∧
    (1 ≤ k → k < ds.length + 1 → ∀ d, (d0 :: ds)[k]? = some d →
      (outw true (d0 :: ds) (weight k)).getLsbD k = (d0.getLsbD k || d.getLsbD k)) ∧
    (1 ≤ k → ds.length + 1 ≤ k → (outw true (d0 :: ds) (weight k)).getLsbD k = d0.getLsbD k) ∧
    (∀ j d, 1 ≤ j → j ≠ k → (d0 :: ds)[j]? = some d →
      (outw true (d0 :: ds) (weight k)).getLsbD j = d.getLsbD k)

/-- R82, its legacy part this spec's own reading (notes/assumptions 9): the bits N..7 of the word are 0 in normalised
mode; in legacy mode bit k is channel 0's bit k for the mask 2^k and 0 for another one-hot mask; in both modes OE[7:N] =
0 after INIT, so they are never driven. -/
def Obligations.SpareOutputBits : Prop :=
  (∀ (D : List Byte) (p : Byte) (i : Nat), D.length ≤ i → (outw false D p).getLsbD i = false) ∧
  (∀ (d0 : Byte) (ds : List Byte) (k m : Nat), m < 8 → ds.length + 1 ≤ k → k < 8 →
    (outw true (d0 :: ds) (weight m)).getLsbD k = (decide (m = k) && d0.getLsbD k)) ∧
  (∀ s : State, s.cfg.hwSupported = true → ∃ t, exec .init s = .next t ∧
    ∀ k, s.cfg.n ≤ k → t.block.oe.getLsbD k = false ∧ lineLevel t.block k = none)

/-- R83, its legacy part this spec's own reading (notes/assumptions 9): channels are independent lanes in normalised
mode; in legacy mode the independence fails for channel 0 against channel k in the slice of the mask 2^k. -/
def Obligations.LanesAreIndependent : Prop :=
  (∀ (D : List Byte) (p v : Byte) (i j : Nat), j ≠ i →
    (outw false (D.set j v) p).getLsbD i = (outw false D p).getLsbD i) ∧
  (∀ n k : Nat, 1 ≤ k → k < n → n ≤ 8 → ∃ (D : List Byte) (v : Byte), D.length = n ∧
    (outw true (D.set 0 v) (weight k)).getLsbD k ≠ (outw true D (weight k)).getLsbD k)

/-! ### bit_plane_sequencer (44_bit_plane_sequencer.md) -/

/-- R86, R93: the advance is the 8-bit shift by one, and 1 where that gives 0; in closed form; never 0, and bit 0 clear
but for 0x01. -/
def Obligations.AdvanceOfTheMask : Prop :=
  ∀ p : Byte, (adv p).toNat = (if p.toNat * 2 % 256 = 0 then 1 else p.toNat * 2 % 256) ∧
    (p &&& 0x7F = 0 → adv p = 0x01) ∧ (p &&& 0x7F ≠ 0 → adv p = (p &&& 0x7F) * 2) ∧ adv p ≠ 0 ∧
    (adv p ≠ 0x01 → (adv p).getLsbD 0 = false)

/-- R87: on the eight one-hot values the advance is the cyclic successor, and eight advances are the identity. -/
def Obligations.AdvanceIsPeriodicWithPeriodEight : Prop :=
  (∀ k, k < 8 → adv (weight k) = weight ((k + 1) % 8)) ∧ (∀ k, k < 8 → adv^[8] (weight k) = weight k) ∧
  (∀ p : Byte, oneHot p = true → oneHot (adv p) = true) ∧ ∀ p : Byte, oneHot p = true ↔ ∃ k, k < 8 ∧ p = weight k

/-- R90: from any byte at most 8 advances reach a one-hot value; with lowest set bit m, exactly 8 - m advances give 0x01
and no value on the way is 0; and no run without a recorded fault ever holds another value in PLANE than a one-hot one
or 0. -/
def Obligations.AdvanceReachesOneHot : Prop :=
  (∀ p : Byte, ∃ k, k ≤ 8 ∧ oneHot (adv^[k] p) = true) ∧ adv 0x00 = 0x01 ∧
  (∀ (p : Byte) (m : Nat), m < 8 → p.getLsbD m = true → (∀ j, j < m → p.getLsbD j = false) →
    adv^[8 - m] p = 0x01 ∧ ∀ j, j ≤ 8 - m → adv^[j] p ≠ 0x00) ∧
  (∀ (c : Config) (ins : List CycleIn) (k : Nat), Safe (after k (powerOn c ins)) →
    (after k (powerOn c ins)).block.plane = 0x00 ∨ oneHot (after k (powerOn c ins)).block.plane = true)

/-! ### Invariants of the state (10_state.md) -/

/-- R27: with PLANE_RESET = 0x01 the mask is one-hot in every state of every run that records no fault; with the legacy
value it is not until the first SERVICE, and is from then on. -/
def Obligations.OneHotMaskInEveryState : Prop :=
  (∀ (c : Config) (ins : List CycleIn) (k : Nat), c.legacyPlaneReset = false → Safe (after k (powerOn c ins)) →
    oneHot (after k (powerOn c ins)).block.plane = true) ∧
  (∀ (c : Config) (ins : List CycleIn) (k : Nat), c.legacyPlaneReset = true → NoReset ins →
    Safe (after k (powerOn c ins)) →
    (oneHot (after k (powerOn c ins)).block.plane = true ↔ 1 ≤ serviceCount k (powerOn c ins)))

/-- R28: in every state of every run that records no fault CMP = 0 or CNT < CMP, and CMP is CMP_RESET or a value that
PLANE has held. -/
def Obligations.CounterStaysBelowCompare : Prop :=
  ∀ (c : Config) (ins : List CycleIn) (k : Nat), Safe (after k (powerOn c ins)) →
    CounterBelow (after k (powerOn c ins)).block ∧
    ((after k (powerOn c ins)).block.cmp = c.cmpReset ∨
      ∃ j, j ≤ k ∧ (after k (powerOn c ins)).block.cmp = (after j (powerOn c ins)).block.plane)

/-- 44_bit_plane_sequencer.md section 4: a SERVICE programs the mask it read, not the one it leaves; so, without a
command error, in every state after a first SERVICE PLANE = adv(CMP), from any starting state. -/
def Obligations.MaskIsTheAdvanceOfCompare : Prop :=
  (∀ s : State, InContract s → ∃ t, step s = .next t ∧ (t.outs.sliceEvt = true →
    t.block.cmp = s.block.plane ∧ t.block.plane = adv s.block.plane)) ∧
  (∀ (s : State) (k : Nat), NoReset s.inputs → Safe (after k s) → 1 ≤ serviceCount k s →
    (after k s).block.plane = adv (after k s).block.cmp)

/-- Every step of a cycle without a command error keeps the invariant of the whole state: the canonical store, the legal
mask, PLANE = adv(CMP) from the first SERVICE on, the counter below the compare value, the ports and FSM state together,
and the spare output bits low. -/
def Obligations.EveryStepKeepsInv : Prop := ∀ s t : State, InContract s → Inv s → step s = .next t → Inv t

/-- The invariant holds at power-on, for every admitted combination of parameters. -/
def Obligations.InvHoldsAtReset : Prop := Inv State.reset ∧ ∀ (c : Config) (ins : List CycleIn), Inv (powerOn c ins)

/-! ### Behaviour counted in ticks (42_timer_compare_isr_fsm.md sections 4 and 7; 45_cycle_properties.md) -/

/-- R71, in a run that records no fault: the slice that a SERVICE with the mask p opens lasts L(p) ticks: for as long as
fewer ticks have passed, CNT is their number, CMP is p and OUT holds the word of the SERVICE; the next SERVICE is at the
L(p)-th tick and not before. Any commands without error and any number of cycles without a tick may lie between. -/
def Obligations.SliceLastsItsWeight : Prop :=
  (∀ s : State, NoReset s.inputs → serviceNow (nextTick s) s.block = true → ∀ k : Nat,
    Safe (after (k + 1) s) → ticksIn (s.inputs.tail.take k) < sliceTicks s.block.plane →
      (after (k + 1) s).block.cnt.toNat = ticksIn (s.inputs.tail.take k) ∧
      (after (k + 1) s).block.cmp = s.block.plane ∧
      (after (k + 1) s).block.out = outw s.cfg.ch0Raw (Memory.snapshot s.cfg s.block.duty) s.block.plane ∧
      ((after (k + 2) s).outs.sliceEvt = true ↔ nextTick (after (k + 1) s) = true ∧
        ticksIn (s.inputs.tail.take k) + 1 = sliceTicks s.block.plane)) ∧
  ∀ k, k < 8 → sliceTicks (weight k) = 2 ^ k

/-- R77, in a run that records no fault: after power-on, cycles without INIT, and a first INIT with supported hardware:
the lines are driven low until the first SERVICE, which is at tick L(CMP_RESET) (tick 1 with the default value) and
reads PLANE_RESET. Ticks before and in the cycle of the INIT do not count. -/
def Obligations.LeadInAfterTheFirstInit : Prop :=
  ∀ (c : Config) (pre : List CycleIn) (i : CycleIn) (post : List CycleIn) (k : Nat), c.hwSupported = true →
    NoReset (pre ++ i :: post) → (∀ j ∈ pre, presentsInit j = false) → presentsInit i = true →
    Safe (after (pre.length + 1 + k) (powerOn c (pre ++ i :: post))) → ticksIn (post.take k) < sliceTicks c.cmpReset →
      (after (pre.length + 1 + k) (powerOn c (pre ++ i :: post))).block.cnt.toNat = ticksIn (post.take k) ∧
      (after (pre.length + 1 + k) (powerOn c (pre ++ i :: post))).block.plane = c.planeReset ∧
      (after (pre.length + 1 + k) (powerOn c (pre ++ i :: post))).block.out = 0x00 ∧
      (after (pre.length + 1 + k) (powerOn c (pre ++ i :: post))).block.oe = BitVec.ofNat 8 (2 ^ c.n - 1) ∧
      ((after (pre.length + 1 + k + 1) (powerOn c (pre ++ i :: post))).outs.sliceEvt = true ↔
        nextTick (after (pre.length + 1 + k) (powerOn c (pre ++ i :: post))) = true ∧
        ticksIn (post.take k) + 1 = sliceTicks c.cmpReset)

/-- R95, R94, R88, in a run that records no fault: counted from the first INIT with default reset values, the SERVICEs
are exactly at the ticks T(j); the j-th reads PLANE = 2^((j-1) mod 8) and leaves 2^(j mod 8), and between T(j) and
T(j+1) CNT counts up from 0. -/
def Obligations.ServiceTicksFollowTheFormula : Prop :=
  ∀ (s : State) (k : Nat), s.block.en = true → s.block.plane = 0x01 → s.block.cmp = 0x01 → s.block.cnt = 0x00 →
    NoReset s.inputs → Safe (after k s) →
    ((after (k + 1) s).outs.sliceEvt = true ↔ nextTick (after k s) = true ∧
      ∃ j, 1 ≤ j ∧ ticksIn (s.inputs.take k) + 1 = serviceTick j) ∧
    (∀ j, 1 ≤ j → ticksIn (s.inputs.take k) + 1 = serviceTick j → (after k s).block.plane = weight ((j - 1) % 8)) ∧
    (∀ j, 1 ≤ j → serviceTick j ≤ ticksIn (s.inputs.take k) → ticksIn (s.inputs.take k) < serviceTick (j + 1) →
      (after k s).block.cnt.toNat = ticksIn (s.inputs.take k) - serviceTick j ∧
      (after k s).block.cmp = weight ((j - 1) % 8) ∧ (after k s).block.plane = weight (j % 8))

/-- R96, in a run that records no fault: a full modulation cycle: in the 255 ticks from a weight-1 SERVICE on there are
eight SERVICEs, the one of weight 2^m at tick 2^m, and the next tick opens the next cycle. -/
def Obligations.FullCycleHasEightServices : Prop :=
  ∀ (s : State) (k : Nat), OpensCycle s → NoReset s.inputs → ticksIn (s.inputs.take k) = 255 →
    Safe (after k s) →
    serviceCount k s = 8 ∧ OpensCycle (after k s) ∧
    ∀ j, j < k → (after (j + 1) s).outs.sliceEvt = true →
      ∃ m, m < 8 ∧ (after (j + 1) s).block.cmp = weight m ∧ ticksIn (s.inputs.take (j + 1)) = 2 ^ m

/-- R99: the duty value may change in mid-cycle. With d_m the value that the SERVICE of weight 2^m sees, the line is
high in that cycle for the sum of 2^m over the m with bit m of d_m set. -/
def Obligations.HighTimeWithChangesInMidCycle : Prop :=
  ∀ (s : State) (k i : Nat) (d : Nat → Byte), OpensCycle s → s.cfg.ch0Raw = false → i < s.cfg.n → NoReset s.inputs →
    ticksIn (s.inputs.take k) = 255 → Safe (after k s) →
    (∀ j m, j < k → m < 8 → (after (j + 1) s).outs.sliceEvt = true → (after (j + 1) s).block.cmp = weight m →
      dutyAt (after j s) i = some (d m)) →
    highTicks i k s = ((List.range 8).map fun m => if (d m).getLsbD m then 2 ^ m else 0).sum

/-- R97: proportionality. If DUTY[i] = d at each SERVICE of one full cycle, line i is high for exactly d of its 255
ticks and low for 255 - d, for every channel. -/
def Obligations.HighTimeIsProportional : Prop :=
  ∀ (s : State) (k i : Nat) (d : Byte), OpensCycle s → s.cfg.ch0Raw = false → i < s.cfg.n → NoReset s.inputs →
    ticksIn (s.inputs.take k) = 255 → Safe (after k s) →
    (∀ j, j < k → (after (j + 1) s).outs.sliceEvt = true → dutyAt (after j s) i = some d) →
    highTicks i k s = d.toNat ∧ ticksIn (s.inputs.take k) - highTicks i k s = 255 - d.toNat

/-- R98: with duty 0 at each SERVICE the line is low throughout the cycle, with 255 it is high throughout, without a
gap; no other value gives 0 or 100 per cent. -/
def Obligations.ExtremeDutiesAreConstant : Prop :=
  ∀ (s : State) (k i : Nat) (d : Byte), OpensCycle s → s.cfg.ch0Raw = false → i < s.cfg.n → NoReset s.inputs →
    ticksIn (s.inputs.take k) = 255 → Safe (after k s) →
    (∀ j, j < k → (after (j + 1) s).outs.sliceEvt = true → dutyAt (after j s) i = some d) →
    (∀ j, j ≤ k → 1 ≤ ticksIn (s.inputs.take j) →
      (d = 0x00 → (after j s).block.out.getLsbD i = false) ∧ (d = 0xFF → (after j s).block.out.getLsbD i = true)) ∧
    (highTicks i k s = 0 ↔ d = 0x00) ∧ (highTicks i k s = 255 ↔ d = 0xFF)

/-- R102: legacy mode, in this spec's own reading (notes/assumptions 9). With DUTY[0] = a and DUTY[i] = b at each
SERVICE of one cycle, line 0 is high for a[0] ticks and line i >= 1 for its own duty, plus 2^i ticks more where a[i] = 1
and b[i] = 0. -/
def Obligations.LegacyHighTime : Prop :=
  ∀ (s : State) (k i : Nat) (a b : Byte), OpensCycle s → s.cfg.ch0Raw = true → i < s.cfg.n → NoReset s.inputs →
    ticksIn (s.inputs.take k) = 255 → Safe (after k s) →
    (∀ j, j < k → (after (j + 1) s).outs.sliceEvt = true →
      dutyAt (after j s) 0 = some a ∧ dutyAt (after j s) i = some b) →
    highTicks 0 k s = (if a.getLsbD 0 then 1 else 0) ∧
    (1 ≤ i → highTicks i k s =
      b.toNat - (if b.getLsbD i then 2 ^ i else 0) + (if a.getLsbD i || b.getLsbD i then 2 ^ i else 0))

/-- R100, in a run that records no fault: once the engine is armed, putting INIT commands into cycles that carry no
command changes no element of the block and no output in any cycle. -/
def Obligations.RepeatedInitChangesNothing : Prop :=
  ∀ (s : State) (ins ins' : List CycleIn) (k : Nat), s.block.en = true → s.block.oe = BitVec.ofNat 8 (2 ^ s.cfg.n - 1) →
    NoReset ins → Safe (after k { s with inputs := ins }) →
    List.Forall₂ (fun i i' => i' = i ∨ (i.cmdValid = false ∧ i'.rst = i.rst ∧ i'.tick = i.tick ∧
      presentsInit i' = true)) ins ins' →
    (after k { s with inputs := ins' }).block = (after k { s with inputs := ins }).block ∧
    (after k { s with inputs := ins' }).outs = (after k { s with inputs := ins }).outs

/-- R57: IDLE cycles change no state, so TICKS_REAL n and TICK n reach the same state of the block, for every TICK_DIV;
SET_ALL writes the N cells in index order. -/
def Obligations.PseudoOperationsOfTheStimulus : Prop :=
  (∀ (s : State) (n div : Nat), 1 ≤ div →
    (after (n * div) { s with inputs := (Line.ticksReal n).cycles div }).block =
      (after n { s with inputs := (Line.tick n).cycles div }).block ∧
    (after n { s with inputs := (Line.idle n).cycles div }).block = s.block) ∧
  (∀ (s : State) (vs : List Byte) (div : Nat), Memory.wf s.cfg s.block.duty = true → vs.length = s.cfg.n →
    ∀ a, a < s.cfg.n →
      dutyAt (after s.cfg.n { s with inputs := (Line.setAll vs).cycles div }) a = vs[a]?)
end

