-- ==== Sys2Proof/Laws/Memory.lean ====
section
/-! SUPPORT. The laws of the Channel Store: a read after a write, the canonical form and that writes keep it. -/

namespace Sys2Proof.Laws

open Machine

variable {d : Byte} {n lo a b : Nat} {v w : Byte} {m : Memory}

theorem canonicalFrom_nil : Memory.canonicalFrom d n lo [] = true := rfl

theorem canonicalFrom_cons :
    Memory.canonicalFrom d n lo ((b, w) :: m) = true ↔
      lo ≤ b ∧ b < n ∧ w ≠ d ∧ Memory.canonicalFrom d n (b + 1) m = true := by
  simp [Memory.canonicalFrom, and_assoc]

theorem canonicalFrom_mono (h : Memory.canonicalFrom d n lo m = true) (hl : b ≤ lo) :
    Memory.canonicalFrom d n b m = true := by
  cases m with
  | nil => rfl
  | cons e m =>
    rw [canonicalFrom_cons] at h ⊢
    exact ⟨by omega, h.2⟩

/-- Below the first index of a canonical list nothing is listed. -/
theorem lookup_below (h : Memory.canonicalFrom d n lo m = true) (ha : a < lo) : m.lookup a = none := by
  induction m generalizing lo with
  | nil => rfl
  | cons e m ih =>
    obtain ⟨b, w⟩ := e
    rw [canonicalFrom_cons] at h
    have hb : a ≠ b := by omega
    simp [Memory.lookup, hb, ih h.2.2.2 (by omega)]

theorem put_canonicalFrom (h : Memory.canonicalFrom d n lo m = true) (hl : lo ≤ a) (ha : a < n) :
    Memory.canonicalFrom d n lo (m.put d a v) = true := by
  induction m generalizing lo with
  | nil =>
    by_cases hv : v = d
    · simp [Memory.put, hv, canonicalFrom_nil]
    · simp [Memory.put, hv, canonicalFrom_cons, canonicalFrom_nil, hl, ha]
  | cons e m ih =>
    obtain ⟨b, w⟩ := e
    rw [canonicalFrom_cons] at h
    obtain ⟨h1, h2, h3, h4⟩ := h
    unfold Memory.put
    split
    · rename_i hab
      by_cases hv : v = d
      · simp [hv, canonicalFrom_cons, h1, h2, h3, h4]
      · simp only [hv, if_false, canonicalFrom_cons]
        exact ⟨hl, ha, hv, by omega, h2, h3, h4⟩
    · split
      · rename_i hab
        subst hab
        by_cases hv : v = d
        · simp only [hv, if_true]
          exact canonicalFrom_mono h4 (by omega)
        · simp only [hv, if_false, canonicalFrom_cons]
          exact ⟨hl, ha, hv, h4⟩
      · rw [canonicalFrom_cons]
        exact ⟨h1, h2, h3, ih h4 (by omega)⟩

/-- A write leaves every other cell alone, in every list. -/
theorem lookup_put_other (h : b ≠ a) : (m.put d a v).lookup b = m.lookup b := by
  induction m with
  | nil => by_cases hv : v = d <;> simp [Memory.put, Memory.lookup, hv, h]
  | cons e m ih =>
    obtain ⟨c, w⟩ := e
    unfold Memory.put
    split
    · by_cases hv : v = d <;> simp [Memory.lookup, hv, h]
    · split
      · rename_i hac
        subst hac
        by_cases hv : v = d <;> simp [Memory.lookup, hv, h]
      · simp [Memory.lookup, ih]

/-- A read of the written cell gives the value written. -/
theorem lookup_put_self (h : Memory.canonicalFrom d n lo m = true) : ((m.put d a v).lookup a).getD d = v := by
  induction m generalizing lo with
  | nil => by_cases hv : v = d <;> simp [Memory.put, Memory.lookup, hv]
  | cons e m ih =>
    obtain ⟨b, w⟩ := e
    rw [canonicalFrom_cons] at h
    obtain ⟨h1, h2, h3, h4⟩ := h
    unfold Memory.put
    split
    · rename_i hab
      by_cases hv : v = d
      · have := lookup_below (a := a) h4 (by omega)
        have hne : a ≠ b := by omega
        simp [hv, Memory.lookup, this, hne]
      · simp [hv, Memory.lookup]
    · split
      · rename_i hab
        subst hab
        by_cases hv : v = d
        · simp [hv, lookup_below h4 (show a < a + 1 by omega)]
        · simp [hv, Memory.lookup]
      · rename_i hab hne
        simp [Memory.lookup, hne, ih h4]

/-- Two writes of one cell are the second alone. -/
theorem put_put (h : Memory.canonicalFrom d n lo m = true) : (m.put d a v).put d a w = m.put d a w := by
  induction m generalizing lo with
  | nil => by_cases hv : v = d <;> simp [Memory.put, hv]
  | cons e m ih =>
    obtain ⟨b, x⟩ := e
    rw [canonicalFrom_cons] at h
    obtain ⟨h1, h2, h3, h4⟩ := h
    by_cases hab : a < b
    · by_cases hv : v = d <;> simp [Memory.put, hab, hv]
    · by_cases hE : a = b
      · subst hE
        by_cases hv : v = d
        · simp only [Memory.put, hv, lt_irrefl, if_false, if_true]
          cases m with
          | nil => simp [Memory.put]
          | cons e m =>
            obtain ⟨c, y⟩ := e
            rw [canonicalFrom_cons] at h4
            have : a < c := by omega
            simp [Memory.put, this]
        · simp [Memory.put, hv]
      · simp [Memory.put, hab, hE, ih h4]

theorem read_eq (c : Config) (m : Memory) (a : Nat) :
    Memory.read c m a = if a < c.n then some ((m.lookup a).getD c.dutyReset) else none := rfl

/-- Everything a store write can do: it answers for a cell of the block alone, and then the cell holds the value, the
other cells are as before and the form is canonical. -/
theorem write_spec {c : Config} {m t : Memory} {a : Nat} {v : Byte} (hm : Memory.wf c m = true)
    (h : Memory.write c m a v = some t) :
    a < c.n ∧ Memory.read c t a = some v ∧ (∀ b, b ≠ a → Memory.read c t b = Memory.read c m b) ∧
      Memory.wf c t = true := by
  unfold Memory.write at h
  split at h
  · rename_i ha
    cases h
    refine ⟨ha, ?_, ?_, put_canonicalFrom hm (Nat.zero_le a) ha⟩
    · simp only [read_eq, ha, if_true]
      exact congrArg some (lookup_put_self hm)
    · intro b hb
      simp [read_eq, lookup_put_other hb]
  · cases h

theorem write_eq_some {c : Config} {m : Memory} {a : Nat} {v : Byte} (ha : a < c.n) :
    Memory.write c m a v = some (m.put c.dutyReset a v) := by simp [Memory.write, ha, Memory.unlisted]

theorem write_eq_none {c : Config} {m : Memory} {a : Nat} {v : Byte} (ha : ¬a < c.n) :
    Memory.write c m a v = none := by simp [Memory.write, ha]

/-- The snapshot lists the cells as they read one by one. -/
theorem snapshot_getElem? (c : Config) (m : Memory) (a : Nat) :
    (Memory.snapshot c m)[a]? = Memory.read c m a := by
  unfold Memory.snapshot
  rw [List.getElem?_map, read_eq, Memory.unlisted]
  by_cases ha : a < c.n
  · simp [ha]
  · simp [ha]

theorem wf_nil (c : Config) : Memory.wf c [] = true := rfl

/-- Two canonical stores that read alike are equal. -/
theorem wf_ext {lo : Nat} {m m' : Memory} (h : Memory.canonicalFrom d n lo m = true)
    (h' : Memory.canonicalFrom d n lo m' = true)
    (e : ∀ a, a < n → (m.lookup a).getD d = (m'.lookup a).getD d) : m = m' := by
  induction m generalizing m' lo with
  | nil =>
    cases m' with
    | nil => rfl
    | cons x m' =>
      obtain ⟨b, w⟩ := x
      rw [canonicalFrom_cons] at h'
      have := e b h'.2.1
      simp [Memory.lookup] at this
      exact absurd this.symm h'.2.2.1
  | cons x m ih =>
    obtain ⟨b, w⟩ := x
    rw [canonicalFrom_cons] at h
    cases m' with
    | nil =>
      have := e b h.2.1
      simp [Memory.lookup] at this
      exact absurd this h.2.2.1
    | cons x' m' =>
      obtain ⟨b', w'⟩ := x'
      rw [canonicalFrom_cons] at h'
      obtain ⟨_, hb, hw, hm⟩ := h
      obtain ⟨_, hb', hw', hm'⟩ := h'
      have hbb : b = b' := by
        rcases Nat.lt_trichotomy b b' with hlt | heq | hgt
        · have := e b hb
          have hne : b ≠ b' := by omega
          simp [Memory.lookup, hne, lookup_below hm' (show b < b' + 1 by omega)] at this
          exact absurd this hw
        · exact heq
        · have := e b' hb'
          have hne : b' ≠ b := by omega
          simp [Memory.lookup, hne, lookup_below hm (show b' < b + 1 by omega)] at this
          exact absurd this.symm hw'
      subst hbb
      have hww : w = w' := by simpa [Memory.lookup] using e b hb
      subst hww
      have : m = m' := ih hm hm' (by
        intro a ha
        by_cases hab : a = b
        · subst hab
          rw [lookup_below hm (by omega), lookup_below hm' (by omega)]
        · simpa [Memory.lookup, hab] using e a ha)
      rw [this]

end Sys2Proof.Laws
end

