-- ==== Sys2Proof/Laws/State.lean ====
section
/-! SUPPORT. What each update of the state does to each field, so that no later proof unfolds a record update. -/

namespace Sys2Proof.Laws

open Machine

section Quiet
variable (s : State)

@[simp] theorem quiet_cfg : (quiet s).cfg = s.cfg := rfl
@[simp] theorem quiet_block : (quiet s).block = s.block := rfl
@[simp] theorem quiet_inputs : (quiet s).inputs = s.inputs := rfl
@[simp] theorem quiet_violation : (quiet s).violation = s.violation := rfl
@[simp] theorem quiet_outs : (quiet s).outs = ⟨s.outs.sliceEvt, false, 0x00, 0b00⟩ := rfl

end Quiet

section Respond
variable (v : Byte) (s : State)

@[simp] theorem respond_cfg : (respond v s).cfg = s.cfg := rfl
@[simp] theorem respond_block : (respond v s).block = s.block := rfl
@[simp] theorem respond_inputs : (respond v s).inputs = s.inputs := rfl
@[simp] theorem respond_violation : (respond v s).violation = s.violation := rfl
@[simp] theorem respond_outs : (respond v s).outs = ⟨s.outs.sliceEvt, true, v, 0b00⟩ := rfl

end Respond

section RaiseCmdError
variable (e : CmdError) (s : State)

@[simp] theorem raiseCmdError_cfg : (raiseCmdError e s).cfg = s.cfg := rfl
@[simp] theorem raiseCmdError_block : (raiseCmdError e s).block = s.block := rfl
@[simp] theorem raiseCmdError_inputs : (raiseCmdError e s).inputs = s.inputs := rfl
@[simp] theorem raiseCmdError_violation : (raiseCmdError e s).violation = recordViolation e s.violation := rfl
@[simp] theorem raiseCmdError_outs : (raiseCmdError e s).outs = ⟨s.outs.sliceEvt, false, 0x00, e.code⟩ := rfl

end RaiseCmdError

section ResetCycle
variable (s : State)

@[simp] theorem resetCycle_cfg : (resetCycle s).cfg = s.cfg := rfl
@[simp] theorem resetCycle_block : (resetCycle s).block = resetBlock s.cfg := rfl
@[simp] theorem resetCycle_inputs : (resetCycle s).inputs = s.inputs := rfl
@[simp] theorem resetCycle_violation : (resetCycle s).violation = s.violation := rfl
@[simp] theorem resetCycle_outs : (resetCycle s).outs = CycleOut.idle := rfl

end ResetCycle

section TimerPart
variable (tick : Bool) (s : State)

@[simp] theorem timerPart_cfg : (timerPart tick s).cfg = s.cfg := rfl
@[simp] theorem timerPart_block :
    (timerPart tick s).block = if s.block.en && tick then tickBlock s.cfg s.block else s.block := rfl
@[simp] theorem timerPart_inputs : (timerPart tick s).inputs = s.inputs := rfl
@[simp] theorem timerPart_violation : (timerPart tick s).violation = s.violation := rfl
@[simp] theorem timerPart_outs :
    (timerPart tick s).outs = { s.outs with sliceEvt := serviceNow tick s.block } := rfl

end TimerPart

section DropInput
variable (s : State)

@[simp] theorem dropInput_cfg : (dropInput s).cfg = s.cfg := rfl
@[simp] theorem dropInput_block : (dropInput s).block = s.block := rfl
@[simp] theorem dropInput_inputs : (dropInput s).inputs = s.inputs.tail := rfl
@[simp] theorem dropInput_violation : (dropInput s).violation = s.violation := rfl
@[simp] theorem dropInput_outs : (dropInput s).outs = s.outs := rfl

end DropInput

section PresentCommand
variable (s : State) (w : CmdWord)

@[simp] theorem presentCommand_currentInput : currentInput (presentCommand s w) = CycleIn.command w := rfl
@[simp] theorem presentCommand_dropInput : dropInput (presentCommand s w) = dropInput s := rfl

end PresentCommand

section TickBlock
variable (c : Config) (b : Block)

@[simp] theorem service_duty : (service c b).duty = b.duty := rfl
@[simp] theorem service_plane : (service c b).plane = adv b.plane := rfl
@[simp] theorem service_cnt : (service c b).cnt = 0x00 := rfl
@[simp] theorem service_cmp : (service c b).cmp = b.plane := rfl
@[simp] theorem service_out : (service c b).out = outw c.ch0Raw (Memory.snapshot c b.duty) b.plane := rfl
@[simp] theorem service_oe : (service c b).oe = b.oe := rfl
@[simp] theorem service_en : (service c b).en = b.en := rfl

@[simp] theorem tickBlock_duty : (tickBlock c b).duty = b.duty := by unfold tickBlock; split <;> rfl
@[simp] theorem tickBlock_oe : (tickBlock c b).oe = b.oe := by unfold tickBlock; split <;> rfl
@[simp] theorem tickBlock_en : (tickBlock c b).en = b.en := by unfold tickBlock; split <;> rfl

end TickBlock

end Sys2Proof.Laws
end

