-- ==== Sys2Proof/Laws/Commands.lean ====
section
/-! SUPPORT. What each meaning and each part of a cycle can do, said once: the lemmas that later proofs cite instead of
unfolding `exec`, `commandPart` or `cycle`. -/

namespace Sys2Proof.Laws

open Machine

variable {s t : State}

theorem storeDuty_in {a : Nat} {v : Byte} (ha : a < s.cfg.n) :
    storeDuty s a v = some { s with block := { s.block with duty := s.block.duty.put s.cfg.dutyReset a v } } := by
  simp [storeDuty, write_eq_some ha]

theorem storeDuty_out {a : Nat} {v : Byte} (ha : ¬a < s.cfg.n) : storeDuty s a v = none := by
  simp [storeDuty, write_eq_none ha]

/-- A valid `SET_DUTY` (R58). -/
theorem exec_setDuty_valid {ch : BitVec 4} {v : Byte} (h : ch.toNat < s.cfg.n) :
    exec (.setDuty ch v) s =
      .next (quiet { s with block := { s.block with duty := s.block.duty.put s.cfg.dutyReset ch.toNat v } }) := by
  simp [exec, execSetDuty, channelIndex, storeDuty_in h]

/-- A valid `GET_DUTY` (R59). -/
theorem exec_getDuty_valid {ch : BitVec 4} (h : ch.toNat < s.cfg.n) :
    ∃ v, dutyAt s ch.toNat = some v ∧ exec (.getDuty ch) s = .next (respond v s) := by
  refine ⟨(s.block.duty.lookup ch.toNat).getD s.cfg.dutyReset, ?_, ?_⟩
  · simp [dutyAt, read_eq, h]
  · simp [exec, execGetDuty, channelIndex, dutyAt, read_eq, h]

/-- A channel command outside 0..N-1 (R53). -/
theorem exec_setDuty_invalid {ch : BitVec 4} {v : Byte} (h : ¬ch.toNat < s.cfg.n) :
    exec (.setDuty ch v) s = .next (raiseCmdError .eChannel s) := by
  simp [exec, execSetDuty, channelIndex, storeDuty_out h]

theorem exec_getDuty_invalid {ch : BitVec 4} (h : ¬ch.toNat < s.cfg.n) :
    exec (.getDuty ch) s = .next (raiseCmdError .eChannel s) := by
  simp [exec, execGetDuty, channelIndex, dutyAt, read_eq, h]

/-- `INIT` (R61, R63). -/
theorem exec_init (s : State) :
    exec .init s =
      .next (quiet (if s.cfg.hwSupported then { s with block := { s.block with en := true, oe := driveMask s.cfg } }
        else s)) := by
  simp only [exec, execInit]
  split <;> rfl

/-- What a command can do to the block: nothing, the setup's two registers, or one cell of the store. -/
inductive CommandEffect (c : Config) (b : Block) : Block → Prop
  | nothing : CommandEffect c b b
  | setup (h : c.hwSupported = true) : CommandEffect c b { b with en := true, oe := driveMask c }
  | cell (a : Nat) (v : Byte) (h : a < c.n) : CommandEffect c b { b with duty := b.duty.put c.dutyReset a v }

/-- Every command answers a next state; it keeps the parameters, the inputs and `slice_evt`, and changes the block in one
of three ways. -/
theorem exec_effect (i : Instr) (s : State) :
    ∃ t, exec i s = .next t ∧ t.cfg = s.cfg ∧ t.inputs = s.inputs ∧ t.outs.sliceEvt = s.outs.sliceEvt ∧
      CommandEffect s.cfg s.block t.block := by
  cases i with
  | init =>
    refine ⟨_, exec_init s, ?_⟩
    by_cases h : s.cfg.hwSupported = true
    · simpa [h] using .setup h
    · simpa [h] using .nothing
  | setDuty ch v =>
    by_cases h : ch.toNat < s.cfg.n
    · exact ⟨_, exec_setDuty_valid h, rfl, rfl, rfl, .cell _ _ h⟩
    · exact ⟨_, exec_setDuty_invalid h, rfl, rfl, rfl, .nothing⟩
  | getDuty ch =>
    by_cases h : ch.toNat < s.cfg.n
    · obtain ⟨v, -, hv⟩ := exec_getDuty_valid (s := s) h
      exact ⟨_, hv, rfl, rfl, rfl, .nothing⟩
    · exact ⟨_, exec_getDuty_invalid h, rfl, rfl, rfl, .nothing⟩

/-- The command part of a cycle, in the same terms. -/
theorem commandPart_effect (i : CycleIn) (s : State) :
    ∃ t, commandPart i s = .next t ∧ t.cfg = s.cfg ∧ t.inputs = s.inputs ∧ t.outs.sliceEvt = s.outs.sliceEvt ∧
      CommandEffect s.cfg s.block t.block := by
  unfold commandPart
  split
  · split
    · exact exec_effect _ s
    · exact ⟨_, rfl, rfl, rfl, rfl, .nothing⟩
  · exact ⟨_, rfl, rfl, rfl, rfl, .nothing⟩

/-- What a step can do (R73): it answers a next state, keeps the parameters and takes one cycle off the inputs; a reset
cycle is RESET, and any other is the timer part and then a command's effect. -/
theorem step_effect (s : State) :
    ∃ t, step s = .next t ∧ t.cfg = s.cfg ∧ t.inputs = s.inputs.tail ∧
      (((currentInput s).rst = true ∧ t = resetCycle (dropInput s)) ∨
        ((currentInput s).rst = false ∧ t.outs.sliceEvt = serviceNow ((currentInput s).tick) s.block ∧
          CommandEffect s.cfg (if s.block.en && (currentInput s).tick then tickBlock s.cfg s.block else s.block) t.block)) := by
  unfold step cycle
  split
  · rename_i h
    exact ⟨_, rfl, rfl, rfl, .inl ⟨h, rfl⟩⟩
  · rename_i h
    obtain ⟨t, ht, h1, h2, h3, h4⟩ :=
      commandPart_effect (currentInput s) (timerPart (currentInput s).tick (dropInput s))
    exact ⟨t, ht, h1, h2, .inr ⟨by simpa using h, h3, h4⟩⟩

/-- No command clears the fault record. -/
theorem exec_keeps_violation {i : Instr} {e : CmdError} (h : exec i s = .next t) (hv : s.violation = some e) :
    t.violation = some e := by
  cases i with
  | init =>
    rw [exec_init] at h
    cases h
    split <;> exact hv
  | setDuty ch v =>
    by_cases hc : ch.toNat < s.cfg.n
    · rw [exec_setDuty_valid hc] at h; cases h; exact hv
    · rw [exec_setDuty_invalid hc] at h; cases h; simp [recordViolation, hv]
  | getDuty ch =>
    by_cases hc : ch.toNat < s.cfg.n
    · obtain ⟨w, -, hw⟩ := exec_getDuty_valid (s := s) hc
      rw [hw] at h; cases h; exact hv
    · rw [exec_getDuty_invalid hc] at h; cases h; simp [recordViolation, hv]

/-- No step clears the fault record. -/
theorem step_keeps_violation {e : CmdError} (h : step s = .next t) (hv : s.violation = some e) :
    t.violation = some e := by
  unfold step cycle at h
  split at h
  · cases h; exact hv
  · unfold commandPart at h
    split at h
    · split at h
      · exact exec_keeps_violation h hv
      · cases h; simp [recordViolation, hv]
    · cases h; exact hv

end Sys2Proof.Laws
end

