-- ==== Sys2Proof/Laws/Encoding.lean ====
section
/-! SUPPORT. The fields of a command word as numbers, and of a word put together in format C. -/

namespace Sys2Proof.Laws

theorem opField_formatC (op ch : BitVec 4) (val : Byte) : opField (formatC op ch val) = op := by
  unfold opField formatC
  ext i hi
  simp only [BitVec.getElem_extractLsb', BitVec.getLsbD_append]
  grind

theorem chField_formatC (op ch : BitVec 4) (val : Byte) : chField (formatC op ch val) = ch := by
  unfold chField formatC
  ext i hi
  simp only [BitVec.getElem_extractLsb', BitVec.getLsbD_append]
  grind

theorem valField_formatC (op ch : BitVec 4) (val : Byte) : valField (formatC op ch val) = val := by
  unfold valField formatC
  ext i hi
  simp only [BitVec.getElem_extractLsb', BitVec.getLsbD_append]
  grind

theorem opField_encode (i : Instr) :
    opField (encode i) = match i with
      | .init => 0x1#4
      | .setDuty _ _ => 0x2#4
      | .getDuty _ => 0x3#4 := by
  cases i <;> exact opField_formatC _ _ _

end Sys2Proof.Laws
end

