-- ==== Sys2Proof/Laws/PerInstr.lean ====
section
/-! SUPPORT. A statement for every command: its canonical word selects its own row of the opcode map (R50). -/

open Sys2Proof

/-- `(encode i & mask) = match` for the row of `i` (R50). -/
def Sys2Proof.Laws.RowMatch.Statement (i : Instr) : Prop := encode i &&& rowMask = rowMatch i

theorem Sys2Proof.Laws.RowMatch.init : Sys2Proof.Laws.RowMatch.Statement .init := by
  unfold Sys2Proof.Laws.RowMatch.Statement
  decide

theorem Sys2Proof.Laws.RowMatch.setDuty (ch : BitVec 4) (val : Byte) :
    Sys2Proof.Laws.RowMatch.Statement (.setDuty ch val) := by
  unfold Sys2Proof.Laws.RowMatch.Statement encode formatC rowMask rowMatch
  ext i hi
  simp only [BitVec.getElem_and, BitVec.getElem_append]
  interval_cases i <;> simp

theorem Sys2Proof.Laws.RowMatch.getDuty (ch : BitVec 4) : Sys2Proof.Laws.RowMatch.Statement (.getDuty ch) := by
  unfold Sys2Proof.Laws.RowMatch.Statement encode formatC rowMask rowMatch
  ext i hi
  simp only [BitVec.getElem_and, BitVec.getElem_append]
  interval_cases i <;> simp
end

