-- ==== Sys2Proof/Laws/StepResult.lean ====
section
/-! SUPPORT. The state a step answers, written out once as a function of what a cycle depends on: the parameters, the block,
the cycle's inputs and the fault record. Later proofs cite `step_eq` and split this function by its cases. -/

namespace Sys2Proof.Laws

open Machine

/-- R55's decoder is the opcode map with the channel test inside. -/
theorem decodeChecked_cases (n : Nat) (w : CmdWord) :
    (decode w = .instr .init ∧ decodeChecked n w = .init) ∨
    (∃ ch val, decode w = .instr (.setDuty ch val) ∧
      ((ch.toNat < n ∧ decodeChecked n w = .setDuty ch val) ∨ (¬ch.toNat < n ∧ decodeChecked n w = .badChannel))) ∨
    (∃ ch, decode w = .instr (.getDuty ch) ∧
      ((ch.toNat < n ∧ decodeChecked n w = .getDuty ch) ∨ (¬ch.toNat < n ∧ decodeChecked n w = .badChannel))) ∨
    (decode w = .badOpcode ∧ decodeChecked n w = .badOpcode) := by
  unfold decode decodeChecked
  by_cases h1 : opField w = 0x1#4
  · simp [h1]
  · by_cases h2 : opField w = 0x2#4
    · by_cases hc : (chField w).toNat < n
      · simp [h2, hc]
      · simp [h2, hc, Nat.le_of_not_lt hc]
    · by_cases h3 : opField w = 0x3#4
      · by_cases hc : (chField w).toNat < n
        · simp [h3, hc]
        · simp [h3, hc, Nat.le_of_not_lt hc]
      · simp [h1, h2, h3]

/-- What the command part of a cycle answers, by R73's case table. -/
def commandResult (i : CycleIn) (s : State) : State :=
  match i.cmdValid, decodeChecked s.cfg.n i.cmd with
  | false, _ => quiet s
  | true, .init =>
    quiet (if s.cfg.hwSupported then { s with block := { s.block with en := true, oe := driveMask s.cfg } } else s)
  | true, .setDuty ch val =>
    quiet { s with block := { s.block with duty := s.block.duty.put s.cfg.dutyReset ch.toNat val } }
  | true, .getDuty ch => respond ((s.block.duty.lookup ch.toNat).getD s.cfg.dutyReset) s
  | true, .badChannel => raiseCmdError .eChannel s
  | true, .badOpcode => raiseCmdError .eOpcode s

theorem exec_getDuty_eq {s : State} {ch : BitVec 4} (h : ch.toNat < s.cfg.n) :
    exec (.getDuty ch) s = .next (respond ((s.block.duty.lookup ch.toNat).getD s.cfg.dutyReset) s) := by
  simp [exec, execGetDuty, channelIndex, dutyAt, read_eq, h]

theorem commandPart_eq (i : CycleIn) (s : State) : commandPart i s = .next (commandResult i s) := by
  unfold commandPart commandResult
  cases i.cmdValid
  · rfl
  · simp only [if_true]
    rcases decodeChecked_cases s.cfg.n i.cmd with ⟨h, h'⟩ | ⟨ch, v, h, ⟨hc, h'⟩ | ⟨hc, h'⟩⟩ |
      ⟨ch, h, ⟨hc, h'⟩ | ⟨hc, h'⟩⟩ | ⟨h, h'⟩
    · rw [h, h']; exact exec_init s
    · rw [h, h']; exact exec_setDuty_valid hc
    · rw [h, h']; exact exec_setDuty_invalid hc
    · rw [h, h']; exact exec_getDuty_eq hc
    · rw [h, h']; exact exec_getDuty_invalid hc
    · rw [h, h']

/-- The block after the timer part (R73). -/
def timerBlock (c : Config) (b : Block) (tick : Bool) : Block := if b.en && tick then tickBlock c b else b

@[simp] theorem timerBlock_duty (c : Config) (b : Block) (t : Bool) : (timerBlock c b t).duty = b.duty := by
  unfold timerBlock; split <;> simp
@[simp] theorem timerBlock_oe (c : Config) (b : Block) (t : Bool) : (timerBlock c b t).oe = b.oe := by
  unfold timerBlock; split <;> simp
@[simp] theorem timerBlock_en (c : Config) (b : Block) (t : Bool) : (timerBlock c b t).en = b.en := by
  unfold timerBlock; split <;> simp

/-- What a cycle answers, from all that it depends on. -/
def stepResult (c : Config) (b : Block) (i : CycleIn) (rest : List CycleIn) (v : Option CmdError) : State :=
  match i.rst with
  | true => { cfg := c, block := resetBlock c, inputs := rest, outs := CycleOut.idle, violation := v }
  | false =>
    commandResult i
      { cfg := c
        block := timerBlock c b i.tick
        inputs := rest
        outs := { CycleOut.idle with sliceEvt := serviceNow i.tick b }
        violation := v }

/-- A command's answer depends on the outputs before it in `slice_evt` alone. -/
theorem commandResult_outs (i : CycleIn) (s : State) (o : CycleOut) (h : o.sliceEvt = s.outs.sliceEvt) :
    commandResult i { s with outs := o } = commandResult i s := by
  unfold commandResult
  cases i.cmdValid
  · simp [quiet, h]
  · simp only
    cases decodeChecked s.cfg.n i.cmd
    case init => by_cases hh : s.cfg.hwSupported = true <;> simp [quiet, h, hh]
    all_goals simp [quiet, respond, raiseCmdError, h]

/-- One step, in closed form (R73). -/
theorem step_eq (s : State) :
    step s = .next (stepResult s.cfg s.block (currentInput s) s.inputs.tail s.violation) := by
  unfold step cycle stepResult
  cases h : (currentInput s).rst
  · simp only [Bool.false_eq_true, if_false]
    rw [commandPart_eq]
    exact congrArg _ (commandResult_outs (currentInput s)
      { cfg := s.cfg, block := timerBlock s.cfg s.block (currentInput s).tick, inputs := s.inputs.tail,
        outs := { CycleOut.idle with sliceEvt := serviceNow (currentInput s).tick s.block }, violation := s.violation }
      { s.outs with sliceEvt := serviceNow (currentInput s).tick s.block } rfl)
  · rfl

/-- A command leaves the engine's registers, the parameters, the inputs and `slice_evt` alone. -/
theorem commandResult_engine (i : CycleIn) (s : State) :
    (commandResult i s).block.plane = s.block.plane ∧ (commandResult i s).block.cnt = s.block.cnt ∧
      (commandResult i s).block.cmp = s.block.cmp ∧ (commandResult i s).block.out = s.block.out ∧
      (commandResult i s).outs.sliceEvt = s.outs.sliceEvt ∧ (commandResult i s).cfg = s.cfg ∧
      (commandResult i s).inputs = s.inputs := by
  unfold commandResult
  split <;> first | (simp; done) | (split <;> simp)

/-- What a command can do to the store: nothing, or one put. -/
theorem commandResult_duty (i : CycleIn) (s : State) :
    (commandResult i s).block.duty = s.block.duty ∨
      ∃ a v, a < s.cfg.n ∧ (commandResult i s).block.duty = s.block.duty.put s.cfg.dutyReset a v := by
  unfold commandResult
  split
  · exact .inl rfl
  · split <;> exact .inl rfl
  · rename_i ch v _ h
    refine .inr ⟨ch.toNat, v, ?_, rfl⟩
    rcases decodeChecked_cases s.cfg.n i.cmd with ⟨_, h'⟩ | ⟨_, _, _, ⟨hc, h'⟩ | ⟨_, h'⟩⟩ |
      ⟨_, _, ⟨_, h'⟩ | ⟨_, h'⟩⟩ | ⟨_, h'⟩ <;> rw [h] at h' <;> cases h'
    exact hc
  · exact .inl rfl
  · exact .inl rfl
  · exact .inl rfl

end Sys2Proof.Laws
end

