-- ==== Sys2Proof/Laws/Runs.lean ====
section
/-! SUPPORT. Runs of many cycles: what `after` keeps, how it splits, and what one cycle without reset does to the engine's
registers and to the fault record; the three cases of the timer part, and how the counts of a run grow by one cycle. -/

namespace Sys2Proof.Laws

open Machine

/-- The state after one cycle; `step` always answers it. -/
theorem step_after_one (s : State) : step s = .next (after 1 s) := by
  obtain ⟨t, ht, -⟩ := step_effect s
  simp [after, ht]

@[simp] theorem after_zero (s : State) : after 0 s = s := rfl

theorem after_succ (k : Nat) (s : State) : after (k + 1) s = after k (after 1 s) := by
  obtain ⟨t, ht, -⟩ := step_effect s
  simp [after, ht]

theorem after_add (j k : Nat) (s : State) : after (j + k) s = after k (after j s) := by
  induction j generalizing s with
  | zero => simp
  | succ j ih => rw [Nat.add_right_comm, after_succ, ih, ← after_succ]

theorem after_succ' (k : Nat) (s : State) : after (k + 1) s = after 1 (after k s) := after_add k 1 s

@[simp] theorem after_cfg (k : Nat) (s : State) : (after k s).cfg = s.cfg := by
  induction k generalizing s with
  | zero => rfl
  | succ k ih =>
    obtain ⟨t, ht, hc, -⟩ := step_effect s
    have h1 : after 1 s = t := by simp [after, ht]
    rw [after_succ, ih, h1, hc]

@[simp] theorem after_inputs (k : Nat) (s : State) : (after k s).inputs = s.inputs.drop k := by
  induction k generalizing s with
  | zero => rfl
  | succ k ih =>
    obtain ⟨t, ht, -, hi, -⟩ := step_effect s
    have h1 : after 1 s = t := by simp [after, ht]
    rw [after_succ, ih, h1, hi, List.drop_tail]

theorem currentInput_rst {s : State} (h : NoReset s.inputs) : (currentInput s).rst = false := by
  unfold currentInput
  cases hs : s.inputs with
  | nil => rfl
  | cons i l => exact h i (by simp [hs])

theorem noReset_drop {l : List CycleIn} (h : NoReset l) (k : Nat) : NoReset (l.drop k) :=
  fun i hi => h i (List.mem_of_mem_drop hi)

/-- One more cycle taken from the list counts its tick; past the end no tick comes. -/
theorem ticksIn_take_succ (k : Nat) (s : State) :
    ticksIn (s.inputs.take (k + 1)) = ticksIn (s.inputs.take k) + (if nextTick (after k s) then 1 else 0) := by
  simp only [nextTick, currentInput, after_inputs]
  by_cases h : k < s.inputs.length
  · rw [List.take_succ_eq_append_getElem h, List.drop_eq_getElem_cons h, ticksIn, List.countP_append]
    simp [ticksIn, List.countP_cons, h]
  · have h1 : s.inputs.length ≤ k := by omega
    rw [List.take_of_length_le h1, List.take_of_length_le (by omega), List.drop_of_length_le h1]
    simp [CycleIn.idle]

/-- The engine's registers and `slice_evt` after a cycle without reset: a TICK of the old block, or no change; what a command
of the cycle does to them is nothing. -/
theorem after_one_engine {s : State} (h : (currentInput s).rst = false) :
    let b := if s.block.en && nextTick s then tickBlock s.cfg s.block else s.block
    (after 1 s).block.plane = b.plane ∧ (after 1 s).block.cnt = b.cnt ∧ (after 1 s).block.cmp = b.cmp ∧
      (after 1 s).block.out = b.out ∧ (after 1 s).outs.sliceEvt = serviceNow (nextTick s) s.block ∧
      (s.block.en = true → (after 1 s).block.en = true) := by
  obtain ⟨t, ht, -, -, h1⟩ := step_effect s
  have h2 : after 1 s = t := by simp [after, ht]
  rw [h2]
  rcases h1 with ⟨hr, -⟩ | ⟨-, hs, he⟩
  · rw [h] at hr; cases hr
  · simp only [nextTick]
    generalize hb : (if s.block.en && (currentInput s).tick then tickBlock s.cfg s.block else s.block) = b at he ⊢
    have hen : b.en = s.block.en := by subst hb; split <;> simp
    cases hT : t.block
    rw [hT] at he
    cases he <;> simp_all

/-- A run whose last state records no fault records none in its first. -/
theorem safe_of_after {s : State} (k : Nat) (h : Safe (after k s)) : Safe s := by
  induction k generalizing s with
  | zero => exact h
  | succ k ih =>
    rw [after_succ] at h
    have h1 : (after 1 s).violation = none := ih h
    cases hv : s.violation with
    | none => exact hv
    | some e =>
      rw [step_keeps_violation (step_after_one s) hv] at h1
      cases h1

/-- The state after one cycle, in closed form. -/
theorem after_one_eq (s : State) :
    after 1 s = stepResult s.cfg s.block (currentInput s) s.inputs.tail s.violation := by
  have h := step_after_one s
  rw [step_eq] at h
  injection h with h
  exact h.symm

/-- The timer part of a cycle is a SERVICE, a count without match, or nothing (R67, R69, R73). -/
theorem timerBlock_cases (c : Config) (b : Block) (tick : Bool) :
    (serviceNow tick b = true ∧ timerBlock c b tick = service c b) ∨
      (serviceNow tick b = false ∧ b.en = true ∧ tick = true ∧ compareMatch b = false ∧
        timerBlock c b tick = { b with cnt := nextCount b }) ∨
      (serviceNow tick b = false ∧ (b.en = false ∨ tick = false) ∧ timerBlock c b tick = b) := by
  unfold serviceNow timerBlock tickBlock
  cases b.en <;> cases tick <;> cases compareMatch b <;> simp

/-- The timer event in numbers: one tick more is the length of the slice (R68, R71). -/
theorem compareMatch_iff (b : Block) : compareMatch b = true ↔ b.cnt.toNat + 1 = sliceTicks b.cmp := by
  have h1 := b.cnt.isLt
  have h2 := b.cmp.isLt
  have h3 : compareMatch b = true ↔ (b.cnt.toNat + 1) % 256 = b.cmp.toNat := by
    simp only [compareMatch, nextCount, decide_eq_true_eq, ← BitVec.toNat_inj, BitVec.toNat_add]
    rfl
  have h4 : b.cmp = 0 ↔ b.cmp.toNat = 0 := by
    rw [← BitVec.toNat_inj]
    rfl
  rw [h3]
  unfold sliceTicks
  split <;> rename_i h <;> rw [h4] at h <;> omega

/-- What every step keeps holds throughout every run. -/
theorem after_invariant {P : State → Prop} (hstep : ∀ s t, P s → step s = .next t → P t) {s : State} (h : P s) (k : Nat) :
    P (after k s) := by
  induction k generalizing s with
  | zero => exact h
  | succ k ih =>
    rw [after_succ]
    exact ih (hstep _ _ h (step_after_one s))

/-- One more cycle counts its SERVICE. -/
theorem serviceCount_succ (k : Nat) (s : State) :
    serviceCount (k + 1) s = serviceCount k s + (if (after (k + 1) s).outs.sliceEvt then 1 else 0) := by
  induction k generalizing s with
  | zero => simp [serviceCount, step_after_one s]
  | succ k ih =>
    rw [serviceCount, step_after_one s]
    simp only
    rw [ih, ← after_succ, serviceCount.eq_2 s k, step_after_one s]
    simp only
    omega

/-- One more cycle counts its tick with line `i` high. -/
theorem highTicks_succ (i k : Nat) (s : State) :
    highTicks i (k + 1) s =
      highTicks i k s + (if nextTick (after k s) && (after (k + 1) s).block.out.getLsbD i then 1 else 0) := by
  induction k generalizing s with
  | zero => simp [highTicks, step_after_one s]
  | succ k ih =>
    rw [highTicks, step_after_one s]
    simp only
    rw [ih, ← after_succ, ← after_succ, highTicks.eq_2 i s k, step_after_one s]
    simp only
    omega

/-- A step that leaves no fault recorded started with none, in a cycle whose command makes no error. -/
theorem inContract_of_safe {s t : State} (h : step s = .next t) (hs : Safe t) : Safe s ∧ InContract s := by
  rw [step_eq] at h
  injection h with h
  subst h
  unfold Safe InContract commandError at *
  unfold stepResult at hs
  cases hr : (currentInput s).rst
  · simp only [hr, commandResult] at hs
    cases hv : (currentInput s).cmdValid
    · simpa [hv] using hs
    · simp only [hv] at hs
      cases hd : decodeChecked s.cfg.n (currentInput s).cmd <;> simp only [hd] at hs ⊢
      · refine ⟨?_, trivial⟩
        split at hs <;> exact hs
      · exact ⟨hs, trivial⟩
      · exact ⟨hs, trivial⟩
      all_goals cases hx : s.violation <;> simp [hx, recordViolation] at hs
  · simpa [hr] using hs

end Sys2Proof.Laws
end

