-- ==== Sys2Proof/Tests/Slice0.lean ====
section
/-! SUPPORT. The model's own tests: expected results come from 95_test_vectors.md and the tables of 30_encoding.md, never
from the model. The witnesses show, for each statement with hypotheses, concrete data that meet them. -/

namespace Sys2Proof.Tests

open Sys2Proof Sys2Proof.Machine Sys2Proof.Laws

/-! ### Builders -/

/-- The canonical store that reads as the given bytes, for the reference `DUTY_RESET` = 0x00. -/
def storeOf : Nat → List Byte → Memory
  | _, [] => []
  | i, d :: ds => if d = 0x00 then storeOf (i + 1) ds else (i, d) :: storeOf (i + 1) ds

/-- An armed block of five channels. -/
def armed (ds : List Byte) (plane cnt cmp out : Byte) : Block :=
  { duty := storeOf 0 ds, plane := plane, cnt := cnt, cmp := cmp, out := out, oe := 0x1F, en := true }

/-- The reference block in the given state, with the given coming cycles. -/
def machine (b : Block) (ins : List CycleIn) : State := { State.reset with block := b, inputs := ins }

/-- The duty values of the source's scenario (vector A1). -/
def scenario : List Byte := [0xFF, 0x00, 0x80, 0x01, 0x40]

/-- The last tick of a full cycle of the scenario (vector B4, second block). -/
def opening (ins : List CycleIn) : State := machine (armed scenario 0x01 0x7F 0x80 0x05) ins

/-- The state that a step answers. -/
def stateOf : Host.Outcome State Fault Refusal → Option State
  | .next t => some t
  | .fault _ => none
  | .refused _ => none

/-- The block that a step leaves. -/
def blockAfter (s : State) : Option Block := (stateOf (step s)).map (·.block)

/-- The outputs that a step shows. -/
def outsAfter (s : State) : Option CycleOut := (stateOf (step s)).map (·.outs)

/-! ### WellFormed: terms it accepts and terms it refuses (R49, R53) -/

theorem test_wf_accepts : Instr.wf Config.reference .init = true ∧
    Instr.wf Config.reference (.setDuty 4 0xFF) = true ∧ Instr.wf Config.reference (.getDuty 4) = true := by decide
theorem test_wf_refuses_setDuty : Instr.wf Config.reference (.setDuty 5 0x55) = false := by decide
theorem test_wf_refuses_getDuty : Instr.wf Config.reference (.getDuty 15) = false := by decide

/-! ### Decoding: words written out bit by bit from 30_encoding.md sections 2, 4 and 9, and vectors B7 -/

theorem test_decode_init : decode 0b0001_0000_0000_0000 = .instr .init := by decide
theorem test_decode_setDuty : decode 0b0010_0100_0100_0000 = .instr (.setDuty 4 64) := by decide
theorem test_decode_getDuty : decode 0b0011_0010_0000_0000 = .instr (.getDuty 2) := by decide
theorem test_decode_reserved : decode 0b0111_0000_0000_0000 = .badOpcode ∧ decode 0x0000 = .badOpcode ∧
    decode 0x4000 = .badOpcode ∧ decode 0xFFFF = .badOpcode := by decide
theorem test_decode_ignored_bits : decode 0x1ABC = .instr .init ∧ decode 0x1FFF = .instr .init ∧
    decode 0x34AB = .instr (.getDuty 4) := by decide
theorem test_decodeChecked_channel : decodeChecked 5 0x24FF = .setDuty 4 0xFF ∧ decodeChecked 5 0x2500 = .badChannel ∧
    decodeChecked 5 0x3500 = .badChannel ∧ decodeChecked 8 0x2555 = .setDuty 5 0x55 ∧
    decodeChecked 5 0x7F00 = .badOpcode := by decide
theorem test_encode : encode .init = 0x1000 ∧ encode (.setDuty 0 255) = 0x20FF ∧ encode (.setDuty 3 1) = 0x2301 ∧
    encode (.getDuty 2) = 0x3200 := by decide
theorem test_decodeTableWord : decodeTableWord 16 0x1000 = some .init ∧
    decodeTableWord 16 0x2000 = some (.setDuty 0 0) ∧ decodeTableWord 16 0x3000 = some (.getDuty 0) := by decide

/-! ### Reset (vectors B8, B3.10; R29) -/

theorem test_reset_is_resetBlock : State.reset.block = resetBlock Config.reference := by decide
theorem test_reset_store_wf : Memory.wf State.reset.cfg State.reset.block.duty = true := by decide
theorem test_reset_cycle :
    blockAfter (machine (armed [0xF0, 0, 0, 0, 0] 0x10 0x05 0x08 0x00) [{ rst := true, tick := true, cmdValid := true, cmd := 0x2555 }]) =
      some { duty := [], plane := 0x01, cnt := 0x00, cmp := 0x01, out := 0x00, oe := 0x00, en := false } := by decide
theorem test_reset_dominates :
    outsAfter (machine (armed scenario 0x01 0x00 0x01 0x00) [{ rst := true, tick := true, cmdValid := true, cmd := 0x2500 }]) =
      some CycleOut.idle := by decide

/-! ### INIT (vectors B6, P7) -/

theorem test_init : blockAfter (machine (resetBlock Config.reference) [CycleIn.commandWith 0x1000 true]) =
    some { duty := [], plane := 0x01, cnt := 0x00, cmp := 0x01, out := 0x00, oe := 0x1F, en := true } := by decide
theorem test_init_unsupported :
    blockAfter (powerOn { Config.reference with hwSupported := false } [CycleIn.command 0x1000]) =
      some { duty := [], plane := 0x01, cnt := 0x00, cmp := 0x01, out := 0x00, oe := 0x00, en := false } := by decide

/-! ### SET_DUTY and GET_DUTY (vectors B5) -/

theorem test_setDuty : blockAfter (machine (armed [0xFF, 0, 0, 0, 0] 0x01 0x00 0x01 0x00) [CycleIn.command 0x2440]) =
    some (armed [0xFF, 0, 0, 0, 0x40] 0x01 0x00 0x01 0x00) := by decide
theorem test_setDuty_out_of_range :
    (stateOf (step (machine (armed [0, 0, 0, 0, 0x40] 0x01 0x00 0x01 0x00) [CycleIn.command 0x2555]))).map
        (fun t => (t.block, t.outs.cmdErr, t.outs.rspValid, t.violation)) =
      some (armed [0, 0, 0, 0, 0x40] 0x01 0x00 0x01 0x00, 0b10, false, some .eChannel) := by decide
theorem test_getDuty :
    outsAfter (machine (armed [0, 0, 0, 0, 0x40] 0x01 0x00 0x01 0x00) [CycleIn.command 0x34AB]) =
      some { sliceEvt := false, rspValid := true, rspData := 0x40, cmdErr := 0b00 } := by decide
theorem test_getDuty_out_of_range :
    outsAfter (machine (armed [0, 0, 0, 0, 0x40] 0x01 0x00 0x01 0x00) [CycleIn.command 0x3F00]) =
      some { sliceEvt := false, rspValid := false, rspData := 0x00, cmdErr := 0b10 } := by decide

/-! ### Reserved opcodes (program P3, cycle 10: the timer part still runs) -/

theorem test_reserved_with_tick :
    (stateOf (step (machine (armed [0, 0, 0, 0, 0] 0x04 0x00 0x02 0x00) [CycleIn.commandWith 0x0000 true]))).map
        (fun t => (t.block, t.outs.cmdErr, t.outs.sliceEvt)) =
      some (armed [0, 0, 0, 0, 0] 0x04 0x01 0x02 0x00, 0b01, false) := by decide

/-! ### TICK (vectors B3) -/

theorem test_tick_counts : blockAfter (machine (armed scenario 0x01 0x7E 0x80 0x05) [CycleIn.tickOnly]) =
    some (armed scenario 0x01 0x7F 0x80 0x05) := by decide
theorem test_tick_compare_zero : blockAfter (machine (armed scenario 0x01 0xFE 0x00 0x00) [CycleIn.tickOnly]) =
    some (armed scenario 0x01 0xFF 0x00 0x00) ∧
    (blockAfter (machine (armed scenario 0x01 0xFF 0x00 0x00) [CycleIn.tickOnly])).map (·.cnt) = some 0x00 := by decide
theorem test_tick_off : blockAfter (machine (resetBlock Config.reference) [CycleIn.tickOnly]) =
    some (resetBlock Config.reference) := by decide

/-! ### SERVICE (vectors B4) -/

theorem test_service : blockAfter (machine (armed scenario 0x40 0x3F 0x40 0x01) [CycleIn.tickOnly]) =
    some (armed scenario 0x80 0x00 0x40 0x11) := by decide
theorem test_service_same_cycle_write : blockAfter (opening [CycleIn.commandWith 0x2300 true]) =
    some (armed [0xFF, 0x00, 0x80, 0x00, 0x40] 0x02 0x00 0x01 0x09) := by decide
theorem test_service_dead_slice :
    (stateOf (step { powerOn { Config.reference with legacyPlaneReset := true } [CycleIn.tickOnly] with
      block := armed [0xFF, 0, 0, 0, 0] 0x00 0x00 0x01 0x00 })).map (·.block) =
      some (armed [0xFF, 0, 0, 0, 0] 0x01 0x00 0x00 0x00) := by decide

/-! ### The output word and the advance (vectors B1, B2) -/

theorem test_outw_normalised : outw false scenario 0x01 = 0x09 ∧ outw false scenario 0x80 = 0x05 ∧
    outw false [0xAA, 0x55, 0x0F, 0xF0, 0x81] 0x01 = 0x16 ∧ outw false [0xAA, 0x55, 0x0F, 0xF0, 0x81] 0x80 = 0x19 ∧
    outw false [0xAA, 0x55, 0x0F, 0xF0, 0x81] 0x08 = 0x05 ∧ outw false [0x02, 0, 0, 0, 0] 0x03 = 0x01 ∧
    outw false [0x80] 0x80 = 0x01 ∧ outw false [0x01, 0x02, 0x04, 0x08, 0x10, 0x20, 0x40, 0x80] 0x10 = 0x10 := by decide
theorem test_outw_legacy : outw true scenario 0x02 = 0x02 ∧ outw true scenario 0x40 = 0x50 ∧
    outw true scenario 0x01 = 0x09 ∧ outw true [0x04, 0x00, 0xFF, 0x00, 0x00] 0x04 = 0x04 := by decide
theorem test_adv : adv 0x80 = 0x01 ∧ adv 0x00 = 0x01 ∧ adv 0x03 = 0x06 ∧ adv 0x81 = 0x02 ∧ adv 0xC0 = 0x80 ∧
    adv 0xFF = 0xFE ∧ adv 0x7F = 0xFE ∧ adv 0x40 = 0x80 := by decide
theorem test_serviceTick : serviceTick 1 = 1 ∧ serviceTick 8 = 128 ∧ serviceTick 9 = 256 ∧ serviceTick 10 = 257 ∧
    serviceTick 16 = 383 ∧ serviceTick 17 = 511 := by decide

/-! ### Stimulus lines (R56, R57) -/

theorem test_parse_setDuty : parseLine 5 "SET_DUTY 1, 0x80 +T ; a comment".toList =
    some [.command (.setDuty 1 0x80) true] := by decide
theorem test_parse_lines : parseLine 5 "TICK 256".toList = some [.tick 256] ∧
    parseLine 5 "CMD 0x7000".toList = some [.cmd 0x7000 false] ∧ parseLine 5 "".toList = some [] ∧
    parseLine 2 "SET_ALL 1, 2".toList = some [.setAll [1, 2]] ∧ parseLine 5 "RESET +T".toList = none ∧
    parseLine 5 "SET_DUTY 1 2".toList = none := by decide
theorem test_cycles : (Line.command (.setDuty 1 0) true).cycles 256 =
      [{ rst := false, tick := true, cmdValid := true, cmd := 0x2100 }] ∧
    (Line.ticksReal 2).cycles 2 = [CycleIn.tickOnly, CycleIn.idle, CycleIn.tickOnly, CycleIn.idle] ∧
    (Line.setAll [7, 9]).cycles 1 = [CycleIn.command 0x2007, CycleIn.command 0x2109] ∧
    Line.reset.cycles 256 = [{ rst := true, tick := false, cmdValid := false, cmd := 0x0000 }] := by decide

/-! ### Witnesses: for every statement with hypotheses, data that meet them, clause by clause -/

/-- 0x1ABC against the canonical INIT, 0x32FF against GET_DUTY 2. -/
theorem witness_UnusedFieldsAreIgnored : opField 0x1000 = 0x1#4 ∧ opField 0x1ABC = 0x1#4 ∧
    opField 0x3200 = 0x3#4 ∧ opField 0x32FF = 0x3#4 ∧ chField 0x32FF = chField 0x3200 := by decide
/-- A presented word of each of the five results, the channels at N - 1 and at N. -/
theorem witness_DecodingAlgorithmAndItsExecution : (CycleIn.command 0x1000).cmdValid = true ∧
    decodeChecked State.reset.cfg.n 0x1000 = .init ∧ decodeChecked State.reset.cfg.n 0x2480 = .setDuty 4 0x80 ∧
    decodeChecked State.reset.cfg.n 0x2500 = .badChannel ∧ decodeChecked State.reset.cfg.n 0x3400 = .getDuty 4 ∧
    decodeChecked State.reset.cfg.n 0x3500 = .badChannel ∧ decodeChecked State.reset.cfg.n 0x0FFF = .badOpcode ∧
    decodeChecked State.reset.cfg.n 0x4000 = .badOpcode := by decide
/-- An armed block, where INIT is the identity. -/
theorem witness_InitIsIdempotent : (opening []).block.en = true ∧
    (opening []).block.oe = BitVec.ofNat 8 (2 ^ (opening []).cfg.n - 1) := by decide
/-- A block without hardware support and its highest channel. -/
theorem witness_UnsupportedHardwareStaysOff : { Config.reference with hwSupported := false }.hwSupported = false ∧
    Safe (after 2 (powerOn { Config.reference with hwSupported := false } [CycleIn.command 0x1000, CycleIn.tickOnly])) ∧
    (4 : BitVec 4).toNat < { Config.reference with hwSupported := false }.n := by
  unfold Safe
  decide
/-- The highest channel of five, another cell, and the value that the cell holds. -/
theorem witness_SetDutyStoresOneCell : Memory.wf (opening []).cfg (opening []).block.duty = true ∧
    (4 : BitVec 4).toNat < (opening []).cfg.n ∧ 3 ≠ channelIndex 4 ∧
    dutyAt (opening []) (channelIndex 4) = some 0x40 := by decide
/-- The highest channel of five. -/
theorem witness_GetDutyResponds : (4 : BitVec 4).toNat < (opening []).cfg.n ∧ (4 : BitVec 4).toNat < Config.reference.n := by
  decide
/-- The first channel that does not exist, the last that a field can name, and an INIT word with such a field. -/
theorem witness_OutOfRangeChannelRaises : State.reset.cfg.n ≤ (5 : BitVec 4).toNat ∧
    State.reset.cfg.n ≤ (15 : BitVec 4).toNat ∧ opField 0x1FFF = 0x1#4 := by decide
/-- One store, two channels, an INIT and a reset cycle. -/
theorem witness_ChannelStoreLaws : Memory.wf (opening []).cfg (opening []).block.duty = true ∧
    (4 : BitVec 4).toNat < (opening []).cfg.n ∧ (3 : BitVec 4) ≠ 4 ∧ (3 : BitVec 4).toNat < (opening []).cfg.n ∧
    (stateOf (exec .init (opening []))).isSome = true ∧ (currentInput (opening [CycleIn.resetOnly])).rst = true ∧
    (stateOf (step (opening [CycleIn.resetOnly]))).isSome = true ∧ 4 < (opening []).cfg.n := by decide
/-- Two states with the same cell, a store in canonical form and its highest channel. -/
theorem witness_ReadsAndWritesAreIdempotent : State.reset.cfg = (opening []).cfg ∧
    dutyAt State.reset (channelIndex 1) = dutyAt (opening []) (channelIndex 1) ∧
    Memory.wf (opening []).cfg (opening []).block.duty = true ∧ (4 : BitVec 4).toNat < (opening []).cfg.n := by decide
/-- Each command with a valid operand answers a next state; a cell beside the stored one. -/
theorem witness_FrameOfEachCommand : (stateOf (exec .init (opening []))).isSome = true ∧
    (stateOf (exec (.getDuty 4) (opening []))).isSome = true ∧
    (stateOf (exec (.setDuty 4 7) (opening []))).isSome = true ∧
    (4 : BitVec 4).toNat < (opening []).cfg.n ∧ 0 ≠ channelIndex 4 := by decide
/-- A command that is not INIT and answers a next state. -/
theorem witness_CommandsNeverReachEngineRegisters : (stateOf (exec (.setDuty 0 7) (opening []))).isSome = true ∧
    Instr.wf (opening []).cfg (.setDuty 0 7) = true ∧ Instr.setDuty 0 7 ≠ .init := by decide
/-- The reserved opcodes at the ends of their ranges, and a cycle without a command. -/
theorem witness_ReservedOpcodeRaises : (CycleIn.command 0x0FFF).cmdValid = true ∧
    opField (CycleIn.command 0x0FFF).cmd = 0x0#4 ∧ 4 ≤ (opField (CycleIn.command 0x4000).cmd).toNat ∧
    4 ≤ (opField (CycleIn.command 0xFFFF).cmd).toNat ∧ CycleIn.tickOnly.cmdValid = false := by decide
/-- A cycle of each error, and one of none. -/
theorem witness_CommandErrorIsDiscardedAndShown :
    commandError (opening []).cfg.n (currentInput (opening [CycleIn.commandWith 0x7F00 true])) = some .eOpcode ∧
    commandError (opening []).cfg.n (currentInput (opening [CycleIn.commandWith 0x2500 true])) = some .eChannel ∧
    commandError (opening []).cfg.n (currentInput (opening [CycleIn.commandWith 0x2400 true])) = none := by decide
/-- A presented reserved word, a presented channel at N and one below N. -/
theorem witness_ErrorCausesAndCodes : (CycleIn.command 0x0000).rst = false ∧ (CycleIn.command 0x0000).cmdValid = true ∧
    opField 0x0000 = 0x0#4 ∧ opField 0x2500 = 0x2#4 ∧ State.reset.cfg.n ≤ (chField 0x2500).toNat ∧
    opField 0x3F00 = 0x3#4 ∧ State.reset.cfg.n ≤ (chField 0x3F00).toNat ∧ ¬State.reset.cfg.n ≤ (chField 0x2400).toNat := by
  decide
/-- A step that shows an error. -/
theorem witness_NothingElseFaults : (outsAfter (opening [CycleIn.command 0x2500])).map (·.cmdErr) = some 0b10 := by decide
/-- A presented command, and a table word that decodes. -/
theorem witness_StepRunsDecodedInstruction : (currentInput (opening [CycleIn.commandWith 0x2300 true])).rst = false ∧
    (currentInput (opening [CycleIn.commandWith 0x2300 true])).cmdValid = true ∧
    decode (currentInput (opening [CycleIn.commandWith 0x2300 true])).cmd = .instr (.setDuty 3 0) ∧
    0x2300 < 65536 ∧ decodeTableWord 16 0x2300 = some (.setDuty 3 0) := by decide
/-- A reset cycle; a cycle without reset; an idle cycle while armed and a tick while off. -/
theorem witness_CycleReadsTheOldState : (currentInput (opening [CycleIn.resetOnly])).rst = true ∧
    (currentInput (opening [CycleIn.commandWith 0x2300 true])).rst = false ∧
    ((currentInput (opening [])).rst = false ∧ (currentInput (opening [])).cmdValid = false ∧ nextTick (opening []) = false) ∧
    ((currentInput (machine (resetBlock Config.reference) [CycleIn.tickOnly])).rst = false ∧
      (currentInput (machine (resetBlock Config.reference) [CycleIn.tickOnly])).cmdValid = false ∧
      (machine (resetBlock Config.reference) [CycleIn.tickOnly]).block.en = false) := by decide
/-- Two reset cycles in a row, with the reference parameters. -/
theorem witness_ResetEstablishesEveryValue :
    (currentInput (opening [CycleIn.resetOnly, CycleIn.resetOnly])).rst = true ∧
    (opening [CycleIn.resetOnly, CycleIn.resetOnly]).cfg = Config.reference ∧
    (stateOf (step (opening [CycleIn.resetOnly, CycleIn.resetOnly]))).map (fun t => (currentInput t).rst) = some true := by
  decide
/-- A reset cycle. -/
theorem witness_ResetDominates : (currentInput (opening [CycleIn.resetOnly])).rst = true := by decide
/-- A block that is off, and a command without error. -/
theorem witness_TicksWhileOffAreLost : State.reset.block.en = false ∧
    commandError State.reset.cfg.n { rst := false, tick := true, cmdValid := true, cmd := 0x24FF } = none := by decide
/-- Off without reset; armed with a tick and without reset; no command error in either. -/
theorem witness_FsmStatesAndTransitions : InContract State.reset ∧ InContract (opening [CycleIn.tickOnly]) ∧
    ((currentInput State.reset).rst = false ∧ State.reset.block.en = false) ∧
    ((currentInput (opening [CycleIn.tickOnly])).rst = false ∧ (opening [CycleIn.tickOnly]).block.en = true ∧
      nextTick (opening [CycleIn.tickOnly]) = true) := by
  unfold InContract
  decide
/-- A match at the end of a slice, a match by wrapping, a tick without match, and a cycle without tick and command. -/
theorem witness_TickAndService : InContract (opening [CycleIn.tickOnly]) ∧ InContract (opening []) ∧
    ((currentInput (opening [CycleIn.tickOnly])).rst = false ∧ (opening [CycleIn.tickOnly]).block.en = true ∧
      nextTick (opening [CycleIn.tickOnly]) = true ∧
      ((opening []).block.cnt.toNat + 1) % 256 = (opening []).block.cmp.toNat) ∧
    ((armed scenario 0x01 0xFF 0x00 0x00).cnt.toNat + 1) % 256 = (armed scenario 0x01 0xFF 0x00 0x00).cmp.toNat ∧
    ((armed scenario 0x01 0x7E 0x80 0x05).cnt.toNat + 1) % 256 ≠ (armed scenario 0x01 0x7E 0x80 0x05).cmp.toNat ∧
    (nextTick (opening []) = false ∧ (currentInput (opening [])).cmdValid = false) := by
  unfold InContract
  decide
/-- A step that performs a SERVICE. -/
theorem witness_SliceEventMarksService : InContract (opening [CycleIn.tickOnly]) ∧
    (outsAfter (opening [CycleIn.tickOnly])).map (·.sliceEvt) = some true := by
  unfold InContract
  decide
/-- A SERVICE, a cycle without one, a reset cycle, and a driven and an undriven line. -/
theorem witness_OutIsWrittenOnlyByService : InContract (opening [CycleIn.tickOnly]) ∧ InContract (opening []) ∧
    InContract (opening [CycleIn.resetOnly]) ∧ (outsAfter (opening [CycleIn.tickOnly])).map (·.sliceEvt) = some true ∧
    ((currentInput (opening [])).rst = false ∧ (outsAfter (opening [])).map (·.sliceEvt) = some false) ∧
    (currentInput (opening [CycleIn.resetOnly])).rst = true ∧ (opening []).block.oe.getLsbD 4 = true ∧
    (opening []).block.oe.getLsbD 5 = false := by
  unfold InContract
  decide
/-- A SET_DUTY in the cycle of a SERVICE, a SERVICE in the next cycle, and no store to that cell after it. -/
theorem witness_WriteIsSeenFromTheNextCycle :
    Memory.wf (opening []).cfg (opening []).block.duty = true ∧ (4 : BitVec 4).toNat < (opening []).cfg.n ∧
    (currentInput (opening [CycleIn.commandWith 0x2402 true, CycleIn.tickOnly])).rst = false ∧
    (currentInput (opening [CycleIn.commandWith 0x2402 true, CycleIn.tickOnly])).cmdValid = true ∧
    decode (currentInput (opening [CycleIn.commandWith 0x2402 true, CycleIn.tickOnly])).cmd = .instr (.setDuty 4 2) ∧
    (outsAfter (after 1 (opening [CycleIn.commandWith 0x2402 true, CycleIn.tickOnly]))).map (·.sliceEvt) = some true ∧
    (∀ i ∈ (after 1 (opening [CycleIn.commandWith 0x2402 true, CycleIn.tickOnly])).inputs.take 1,
      i.rst = false ∧ commandError (opening []).cfg.n i = none ∧ i.cmdValid = false) ∧
    InContract (after 1 (opening [CycleIn.commandWith 0x2402 true, CycleIn.tickOnly])) := by
  unfold InContract
  decide
/-- A cell that a cycle changes. -/
theorem witness_OneCellPerCycle : InContract (opening [CycleIn.command 0x2400]) ∧
    (currentInput (opening [CycleIn.command 0x2400])).rst = false ∧
    dutyAt (after 1 (opening [CycleIn.command 0x2400])) 4 ≠ dutyAt (opening [CycleIn.command 0x2400]) 4 := by
  unfold InContract
  decide
/-- An armed block in a cycle without reset and command, and a command without error in its place. -/
theorem witness_WhatNoProducerCanDo : InContract (opening []) ∧ (currentInput (opening [])).rst = false ∧
    (opening []).block.en = true ∧
    commandError (opening []).cfg.n { currentInput (opening []) with cmdValid := true, cmd := 0x24FF } = none := by
  unfold InContract
  decide
/-- A store and a read of the highest channel, each with a tick. -/
theorem witness_StoreThenReadInTheNextCycle :
    (opening [CycleIn.commandWith 0x2407 true, CycleIn.commandWith 0x34FF true]).inputs =
      CycleIn.commandWith 0x2407 true :: CycleIn.commandWith 0x34FF true :: [] ∧
    Memory.wf (opening []).cfg (opening []).block.duty = true ∧ (4 : BitVec 4).toNat < (opening []).cfg.n ∧
    (CycleIn.commandWith 0x2407 true).rst = false ∧ (CycleIn.commandWith 0x2407 true).cmdValid = true ∧
    decode (CycleIn.commandWith 0x2407 true).cmd = .instr (.setDuty 4 7) ∧
    (CycleIn.commandWith 0x34FF true).rst = false ∧ (CycleIn.commandWith 0x34FF true).cmdValid = true ∧
    decode (CycleIn.commandWith 0x34FF true).cmd = .instr (.getDuty 4) := by decide
/-- The highest bit, and a value and a mask with a common bit. -/
theorem witness_ChannelEvaluation : 7 < 8 ∧ (0x80 : Byte).getLsbD 7 = true ∧ laneBit 0x02 0x03 = 1 := by decide
/-- The last channel and the first bit beyond the channels. -/
theorem witness_NormalisedOutputWord : 4 < 8 ∧ scenario[4]? = some 0x40 ∧ scenario[5]? = none := by decide
/-- The mask's own line among the channels and beyond them, and another line. -/
theorem witness_LegacyOutputWord : 7 < 8 ∧ scenario.tail.length < 8 ∧ (1 ≤ 4 ∧ 4 < scenario.tail.length + 1) ∧
    scenario[4]? = some 0x40 ∧ (1 ≤ 5 ∧ scenario.tail.length + 1 ≤ 5) ∧ 4 ≠ 7 := by decide
/-- The first bit beyond the channels, and supported hardware. -/
theorem witness_SpareOutputBits : scenario.length ≤ 5 ∧ scenario.tail.length + 1 ≤ 5 ∧ 5 < 8 ∧
    State.reset.cfg.hwSupported = true ∧ State.reset.cfg.n ≤ 5 := by decide
/-- Two channels, and the smallest and the largest case of the legacy exception. -/
theorem witness_LanesAreIndependent : 3 ≠ 4 ∧ (1 ≤ 1 ∧ 1 < 2 ∧ 2 ≤ 8) ∧ (1 ≤ 7 ∧ 7 < 8 ∧ 8 ≤ 8) := by decide
/-- Masks with and without a bit below the top one, and one whose advance is not 0x01. -/
theorem witness_AdvanceOfTheMask : (0x80 : Byte) &&& 0x7F = 0 ∧ (0x81 : Byte) &&& 0x7F ≠ 0 ∧ adv 0x81 ≠ 0x01 := by decide
/-- The last of the eight masks. -/
theorem witness_AdvanceIsPeriodicWithPeriodEight : 7 < 8 ∧ oneHot 0x80 = true := by decide
/-- A byte whose lowest set bit is bit 6, and a run that records no fault. -/
theorem witness_AdvanceReachesOneHot : 6 < 8 ∧ (0xC0 : Byte).getLsbD 6 = true ∧
    (∀ j, j < 6 → (0xC0 : Byte).getLsbD j = false) ∧
    Safe (after 2 (powerOn Config.reference [CycleIn.command 0x1000, CycleIn.tickOnly])) := by
  unfold Safe
  decide
/-- Both reset values of the mask, and inputs without a reset. -/
theorem witness_OneHotMaskInEveryState : Config.reference.legacyPlaneReset = false ∧
    { Config.reference with legacyPlaneReset := true }.legacyPlaneReset = true ∧
    NoReset [CycleIn.command 0x1000, CycleIn.tickOnly] ∧
    Safe (after 2 (powerOn Config.reference [CycleIn.command 0x1000, CycleIn.tickOnly])) ∧
    Safe (after 2 (powerOn { Config.reference with legacyPlaneReset := true } [CycleIn.command 0x1000, CycleIn.tickOnly])) ∧
    serviceCount 2 (powerOn { Config.reference with legacyPlaneReset := true } [CycleIn.command 0x1000, CycleIn.tickOnly]) = 1 := by
  unfold NoReset Safe
  decide
/-- A run that records no fault. -/
theorem witness_CounterStaysBelowCompare :
    Safe (after 2 (powerOn Config.reference [CycleIn.command 0x1000, CycleIn.tickOnly])) := by
  unfold Safe
  decide
/-- A run of one cycle with a SERVICE. -/
theorem witness_MaskIsTheAdvanceOfCompare : InContract (opening [CycleIn.tickOnly]) ∧
    Safe (after 1 (opening [CycleIn.tickOnly])) ∧ (outsAfter (opening [CycleIn.tickOnly])).map (·.sliceEvt) = some true ∧
    NoReset (opening [CycleIn.tickOnly]).inputs ∧ 1 ≤ serviceCount 1 (opening [CycleIn.tickOnly]) := by
  unfold NoReset Safe InContract
  decide
/-- The state of program P1 after tick 65 meets the invariant, and a step leads on. -/
theorem witness_EveryStepKeepsInv :
    InContract (machine (armed scenario 0x80 0x01 0x40 0x11) [CycleIn.tickOnly]) ∧
    Inv (machine (armed scenario 0x80 0x01 0x40 0x11) [CycleIn.tickOnly]) ∧
    (stateOf (step (machine (armed scenario 0x80 0x01 0x40 0x11) [CycleIn.tickOnly]))).isSome = true := by
  refine ⟨by unfold InContract; decide, ⟨by decide, .inl (by decide), .inr (by decide), .inr (by decide), .inr (by decide), ?_⟩, by decide⟩
  intro _ i hi
  have h : ∀ j, j < 8 → 5 ≤ j → (0x11 : Byte).getLsbD j = false := by decide
  by_cases h8 : i < 8
  · exact h i h8 hi
  · exact BitVec.getLsbD_of_ge _ i (by omega)
/-- Cycles with a tick and nothing else leave the store and the fault record alone. -/
theorem ticks_keep_store (k : Nat) (s : State) (h : ∀ i ∈ s.inputs, i = CycleIn.tickOnly) :
    (after k s).block.duty = s.block.duty ∧ (after k s).violation = s.violation := by
  induction k generalizing s with
  | zero => exact ⟨rfl, rfl⟩
  | succ k ih =>
    have hr : (currentInput s).rst = false ∧ (currentInput s).cmdValid = false := by
      unfold currentInput
      cases hs : s.inputs with
      | nil => decide
      | cons i l =>
        rw [h i (by simp [hs])]
        exact ⟨rfl, rfl⟩
    have h1 := ih (after 1 s) (by
      rw [after_inputs]
      exact fun i hi => h i (List.mem_of_mem_drop hi))
    rw [after_succ, h1.1, h1.2, after_one_eq, stepResult, hr.1, commandResult, hr.2]
    simp

/-- The SERVICE of weight 64 of vector B4, at the start and at the last tick of its slice. -/
theorem witness_SliceLastsItsWeight :
    NoReset (machine (armed scenario 0x40 0x3F 0x40 0x01) (List.replicate 65 CycleIn.tickOnly)).inputs ∧
    serviceNow (nextTick (machine (armed scenario 0x40 0x3F 0x40 0x01) (List.replicate 65 CycleIn.tickOnly)))
      (armed scenario 0x40 0x3F 0x40 0x01) = true ∧
    ticksIn ((List.replicate 65 CycleIn.tickOnly).tail.take 0) < sliceTicks 0x40 ∧
    ticksIn ((List.replicate 65 CycleIn.tickOnly).tail.take 63) < sliceTicks 0x40 ∧
    ticksIn ((List.replicate 65 CycleIn.tickOnly).tail.take 63) + 1 = sliceTicks 0x40 ∧
    Safe (after (0 + 1) (machine (armed scenario 0x40 0x3F 0x40 0x01) (List.replicate 65 CycleIn.tickOnly))) ∧
    Safe (after (63 + 1) (machine (armed scenario 0x40 0x3F 0x40 0x01) (List.replicate 65 CycleIn.tickOnly))) := by
  refine ⟨by unfold NoReset; decide, by decide, by decide, by decide, by decide, ?_, ?_⟩ <;>
    exact (ticks_keep_store _ _ fun _ h => List.eq_of_mem_replicate h).2
/-- Ticks and a store before the INIT, a tick in its cycle, one tick after it (program P7). -/
theorem witness_LeadInAfterTheFirstInit : Config.reference.hwSupported = true ∧
    NoReset ([CycleIn.tickOnly, CycleIn.command 0x20FF] ++ CycleIn.commandWith 0x1000 true :: [CycleIn.tickOnly]) ∧
    (∀ j ∈ [CycleIn.tickOnly, CycleIn.command 0x20FF], presentsInit j = false) ∧
    presentsInit (CycleIn.commandWith 0x1000 true) = true ∧
    Safe (after (2 + 1 + 0) (powerOn Config.reference
      ([CycleIn.tickOnly, CycleIn.command 0x20FF] ++ CycleIn.commandWith 0x1000 true :: [CycleIn.tickOnly]))) ∧
    ticksIn ([CycleIn.tickOnly].take 0) < sliceTicks Config.reference.cmpReset := by
  unfold NoReset Safe
  decide
/-- The state after a first INIT, before tick 1, between T(2) and T(3), and at tick T(3). -/
theorem witness_ServiceTicksFollowTheFormula :
    ((armed scenario 0x01 0x00 0x01 0x00).en = true ∧ (armed scenario 0x01 0x00 0x01 0x00).plane = 0x01 ∧
      (armed scenario 0x01 0x00 0x01 0x00).cmp = 0x01 ∧ (armed scenario 0x01 0x00 0x01 0x00).cnt = 0x00 ∧
      NoReset (List.replicate 4 CycleIn.tickOnly)) ∧
    (1 ≤ 1 ∧ ticksIn ((List.replicate 4 CycleIn.tickOnly).take 0) + 1 = serviceTick 1) ∧
    (1 ≤ 2 ∧ serviceTick 2 ≤ ticksIn ((List.replicate 4 CycleIn.tickOnly).take 3) ∧
      ticksIn ((List.replicate 4 CycleIn.tickOnly).take 3) < serviceTick (2 + 1)) ∧
    Safe (after 3 (machine (armed scenario 0x01 0x00 0x01 0x00) (List.replicate 4 CycleIn.tickOnly))) := by
  unfold NoReset Safe
  decide

/-! A full cycle of 255 ticks without a command, for the statements about whole cycles. -/

/-- One full cycle of the scenario, from the weight-1 SERVICE on. -/
def cycle255 : State := opening (List.replicate 255 CycleIn.tickOnly)

theorem witness_cycle255 : OpensCycle cycle255 ∧ NoReset cycle255.inputs ∧ ticksIn (cycle255.inputs.take 255) = 255 ∧
    (after (0 + 1) cycle255).outs.sliceEvt = true := by
  refine ⟨by unfold OpensCycle; decide, ?_, ?_, by decide⟩
  · intro i hi
    rw [List.eq_of_mem_replicate hi]
    rfl
  · rw [show cycle255.inputs = List.replicate 255 CycleIn.tickOnly from rfl, List.take_replicate, ticksIn,
      List.countP_replicate]
    rfl

theorem witness_cycle255_duty (i : Nat) (j : Nat) : dutyAt (after j cycle255) i = dutyAt cycle255 i := by
  simp [dutyAt, (ticks_keep_store j cycle255 fun _ h => List.eq_of_mem_replicate h).1]

theorem witness_cycle255_safe : Safe (after 255 cycle255) :=
  (ticks_keep_store 255 cycle255 fun _ h => List.eq_of_mem_replicate h).2

/-- The full cycle, and its first SERVICE. -/
theorem witness_FullCycleHasEightServices : OpensCycle cycle255 ∧ NoReset cycle255.inputs ∧
    ticksIn (cycle255.inputs.take 255) = 255 ∧ Safe (after 255 cycle255) ∧ 0 < 255 ∧
    (after (0 + 1) cycle255).outs.sliceEvt = true :=
  ⟨witness_cycle255.1, witness_cycle255.2.1, witness_cycle255.2.2.1, witness_cycle255_safe, by decide, witness_cycle255.2.2.2⟩
/-- The highest channel of the scenario, whose value is 64 at every SERVICE. -/
theorem witness_HighTimeWithChangesInMidCycle : OpensCycle cycle255 ∧ cycle255.cfg.ch0Raw = false ∧ 4 < cycle255.cfg.n ∧
    NoReset cycle255.inputs ∧ ticksIn (cycle255.inputs.take 255) = 255 ∧ Safe (after 255 cycle255) ∧
    (∀ j m, j < 255 → m < 8 → (after (j + 1) cycle255).outs.sliceEvt = true →
      (after (j + 1) cycle255).block.cmp = weight m → dutyAt (after j cycle255) 4 = some ((fun _ => 0x40 : Nat → Byte) m)) :=
  ⟨witness_cycle255.1, rfl, by decide, witness_cycle255.2.1, witness_cycle255.2.2.1, witness_cycle255_safe,
    fun j _ _ _ _ _ => (witness_cycle255_duty 4 j).trans (show dutyAt cycle255 4 = some 0x40 by decide)⟩
/-- The same channel with one value. -/
theorem witness_HighTimeIsProportional : OpensCycle cycle255 ∧ cycle255.cfg.ch0Raw = false ∧ 4 < cycle255.cfg.n ∧
    NoReset cycle255.inputs ∧ ticksIn (cycle255.inputs.take 255) = 255 ∧ Safe (after 255 cycle255) ∧
    (∀ j, j < 255 → (after (j + 1) cycle255).outs.sliceEvt = true → dutyAt (after j cycle255) 4 = some 0x40) :=
  ⟨witness_cycle255.1, rfl, by decide, witness_cycle255.2.1, witness_cycle255.2.2.1, witness_cycle255_safe,
    fun j _ _ => (witness_cycle255_duty 4 j).trans (by decide)⟩
/-- Channel 0 of the scenario with 255, channel 1 with 0, and a cycle after the first tick. -/
theorem witness_ExtremeDutiesAreConstant : OpensCycle cycle255 ∧ cycle255.cfg.ch0Raw = false ∧ 1 < cycle255.cfg.n ∧
    NoReset cycle255.inputs ∧ ticksIn (cycle255.inputs.take 255) = 255 ∧ Safe (after 255 cycle255) ∧
    (∀ j, j < 255 → (after (j + 1) cycle255).outs.sliceEvt = true → dutyAt (after j cycle255) 0 = some 0xFF) ∧
    (∀ j, j < 255 → (after (j + 1) cycle255).outs.sliceEvt = true → dutyAt (after j cycle255) 1 = some 0x00) ∧
    1 ≤ 255 ∧ 1 ≤ ticksIn (cycle255.inputs.take 1) :=
  ⟨witness_cycle255.1, rfl, by decide, witness_cycle255.2.1, witness_cycle255.2.2.1, witness_cycle255_safe,
    fun j _ _ => (witness_cycle255_duty 0 j).trans (by decide), fun j _ _ => (witness_cycle255_duty 1 j).trans (by decide),
    by decide, by decide⟩

/-- The same full cycle in legacy mode (program P4). -/
def legacy255 : State := { cycle255 with cfg := { Config.reference with ch0Raw := true } }

theorem witness_legacy255_duty (i : Nat) (j : Nat) : dutyAt (after j legacy255) i = dutyAt legacy255 i := by
  simp [dutyAt, (ticks_keep_store j legacy255 fun _ h => List.eq_of_mem_replicate h).1]

/-- Channels 0 and 4 of the scenario in legacy mode. -/
theorem witness_LegacyHighTime : OpensCycle legacy255 ∧ legacy255.cfg.ch0Raw = true ∧ 4 < legacy255.cfg.n ∧
    NoReset legacy255.inputs ∧ ticksIn (legacy255.inputs.take 255) = 255 ∧ Safe (after 255 legacy255) ∧
    (∀ j, j < 255 → (after (j + 1) legacy255).outs.sliceEvt = true →
      dutyAt (after j legacy255) 0 = some 0xFF ∧ dutyAt (after j legacy255) 4 = some 0x40) ∧ 1 ≤ 4 :=
  ⟨witness_cycle255.1, rfl, by decide, witness_cycle255.2.1, witness_cycle255.2.2.1,
    (ticks_keep_store 255 legacy255 fun _ h => List.eq_of_mem_replicate h).2,
    fun j _ _ => ⟨(witness_legacy255_duty 0 j).trans (by decide), (witness_legacy255_duty 4 j).trans (by decide)⟩, by decide⟩
/-- An INIT put into an idle cycle and into a tick cycle, beside a cycle left as it was. -/
theorem witness_RepeatedInitChangesNothing : (opening []).block.en = true ∧
    (opening []).block.oe = BitVec.ofNat 8 (2 ^ (opening []).cfg.n - 1) ∧
    NoReset [CycleIn.idle, CycleIn.tickOnly, CycleIn.command 0x2400] ∧
    Safe (after 3 { opening [] with inputs := [CycleIn.idle, CycleIn.tickOnly, CycleIn.command 0x2400] }) ∧
    List.Forall₂ (fun i i' => i' = i ∨ (i.cmdValid = false ∧ i'.rst = i.rst ∧ i'.tick = i.tick ∧ presentsInit i' = true))
      [CycleIn.idle, CycleIn.tickOnly, CycleIn.command 0x2400]
      [CycleIn.command 0x1000, CycleIn.commandWith 0x1ABC true, CycleIn.command 0x2400] := by
  unfold NoReset Safe
  refine ⟨by decide, by decide, by decide, by decide, .cons (.inr (by decide)) (.cons (.inr (by decide)) (.cons (.inl rfl) .nil))⟩
/-- The reference divider, and five values for five channels. -/
theorem witness_PseudoOperationsOfTheStimulus : 1 ≤ Config.tickDivReference ∧
    Memory.wf (opening []).cfg (opening []).block.duty = true ∧ [(1 : Byte), 2, 3, 4, 5].length = (opening []).cfg.n ∧
    4 < (opening []).cfg.n := by decide

end Sys2Proof.Tests
end

/-! ## The state of the block (10_state.md)
The invariant of the whole state, first as facts about the operations that change the block (the advance of the mask, the
output word, a SERVICE, a count, a command), then for a step and for runs; after that the noninterference of the commands
and the outputs of a step. -/

namespace Sys2Proof.Proofs

open Machine Laws

/-! ### The mask and the output word -/

theorem oneHot_adv {p : Byte} (h : oneHot p = true) : oneHot (adv p) = true := by
  have hall : ∀ q ∈ [(0x01 : Byte), 0x02, 0x04, 0x08, 0x10, 0x20, 0x40, 0x80], oneHot (adv q) = true := by decide
  exact hall p (of_decide_eq_true h)

/-- The legacy mask 0 advances to 0x01 (R89). -/
theorem oneHot_adv_zero : oneHot (adv 0) = true := by decide

theorem laneBit_getLsbD_of_pos (d p : Byte) {j : Nat} (hj : 0 < j) : (laneBit d p).getLsbD j = false := by
  have hne : j ≠ 0 := by omega
  unfold laneBit
  split <;> simp [hne]

/-- The word has no bit above the last lane. -/
theorem lanes_getLsbD_beyond (p : Byte) {i j : Nat} {D : List Byte} (hj : i + D.length ≤ j) :
    (lanes p i D).getLsbD j = false := by
  induction D generalizing i with
  | nil => simp [lanes]
  | cons d D ih =>
    rw [List.length_cons] at hj
    have hd : (laneBit d p).getLsbD (j - i) = false := laneBit_getLsbD_of_pos d p (by omega)
    have hD : (lanes p (i + 1) D).getLsbD j = false := ih (by omega)
    simp [lanes, hd, hD]

@[simp] theorem snapshot_length (c : Config) (m : Memory) : (Memory.snapshot c m).length = c.n := by
  simp [Memory.snapshot]

/-- In normalised mode the word has bits below N only (R82). -/
theorem outw_normalised_beyond (c : Config) (m : Memory) (p : Byte) {j : Nat} (hj : c.n ≤ j) :
    (outw false (Memory.snapshot c m) p).getLsbD j = false :=
  lanes_getLsbD_beyond p (by simpa using hj)

/-! ### What the parts of a cycle do to the invariant -/

variable {s t : State}

/-- The invariant speaks of the parameters and the block alone. -/
theorem inv_congr (hc : t.cfg = s.cfg) (hb : t.block = s.block) (h : Inv s) : Inv t := by
  obtain ⟨hstore, hmask, hfollows, hcounter, hports, hspare⟩ := h
  rw [← hc, ← hb] at hstore hmask hfollows hports hspare
  rw [← hb] at hcounter
  exact ⟨hstore, hmask, hfollows, hcounter, hports, hspare⟩

theorem maskLegal_reset (c : Config) : MaskLegal c (resetBlock c) := by
  cases hl : c.legacyPlaneReset
  · have hp : (resetBlock c).plane = 0x01 := by simp [resetBlock, Config.planeReset, hl]
    exact .inl (by rw [hp]; rfl)
  · exact .inr ⟨hl, by simp [resetBlock, Config.planeReset, hl]⟩

/-- A counter at 0 is below every compare value but 0. -/
theorem counterBelow_of_cnt_zero {b : Block} (h : b.cnt = 0) : CounterBelow b := by
  unfold CounterBelow
  rw [h]
  bv_omega

theorem inv_of_block_reset (h : s.block = resetBlock s.cfg) : Inv s where
  store := by rw [h]; exact wf_nil s.cfg
  mask := by rw [h]; exact maskLegal_reset s.cfg
  follows := by rw [h]; exact .inl ⟨rfl, rfl⟩
  counter := by rw [h]; exact counterBelow_of_cnt_zero rfl
  ports := by rw [h]; exact .inl ⟨rfl, rfl, rfl, rfl, rfl, rfl⟩
  spare := by rw [h]; intro _ i _; exact BitVec.getLsbD_zero

theorem maskLegal_service {c : Config} {b : Block} (h : MaskLegal c b) : MaskLegal c (service c b) := by
  rcases h with h | ⟨-, h⟩
  · exact .inl (oneHot_adv h)
  · exact .inl (by rw [service_plane, h]; exact oneHot_adv_zero)

/-- With EN = 1 the ports clause is about OE and the hardware alone. -/
theorem portsLegal_armed {c : Config} {b b' : Block} (h : PortsLegal c b) (hen : b.en = true) (hen' : b'.en = b.en)
    (hoe : b'.oe = b.oe) : PortsLegal c b' := by
  rcases h with ⟨hoff, -⟩ | ⟨-, hdrive, hhw⟩
  · rw [hoff] at hen; cases hen
  · exact .inr ⟨hen'.trans hen, hoe.trans hdrive, hhw⟩

theorem inv_service (h : Inv s) (hen : s.block.en = true) : Inv { s with block := service s.cfg s.block } where
  store := h.store
  mask := maskLegal_service h.mask
  follows := .inr rfl
  counter := counterBelow_of_cnt_zero rfl
  ports := portsLegal_armed h.ports hen rfl rfl
  spare := by
    intro hraw i hi
    rw [service_out, hraw]
    exact outw_normalised_beyond s.cfg s.block.duty s.block.plane hi

/-- Below the compare value a count that does not match stays below it (R28). -/
theorem counterBelow_count {b : Block} (h : CounterBelow b) (hm : compareMatch b = false) :
    CounterBelow { b with cnt := nextCount b } := by
  have hne : b.cnt + 1 ≠ b.cmp := of_decide_eq_false hm
  rcases h with h | h
  · exact .inl h
  · exact .inr (show b.cnt + 1 < b.cmp by bv_omega)

theorem inv_count (h : Inv s) (hen : s.block.en = true) (hm : compareMatch s.block = false) :
    Inv { s with block := { s.block with cnt := nextCount s.block } } where
  store := h.store
  mask := h.mask
  follows := h.follows
  counter := counterBelow_count h.counter hm
  ports := portsLegal_armed h.ports hen rfl rfl
  spare := h.spare

theorem en_of_serviceNow {tick : Bool} {b : Block} (h : serviceNow tick b = true) : b.en = true := by
  simp only [serviceNow, Bool.and_eq_true] at h
  exact h.1.1

theorem inv_timerBlock (h : Inv s) (tick : Bool) : Inv { s with block := timerBlock s.cfg s.block tick } := by
  rcases timerBlock_cases s.cfg s.block tick with ⟨hnow, hb⟩ | ⟨-, hen, -, hm, hb⟩ | ⟨-, -, hb⟩ <;> rw [hb]
  · exact inv_service h (en_of_serviceNow hnow)
  · exact inv_count h hen hm
  · exact h

theorem inv_commandEffect {b : Block} (h : Inv s) (he : CommandEffect s.cfg s.block b) : Inv { s with block := b } := by
  cases he with
  | nothing => exact h
  | setup hhw => exact ⟨h.store, h.mask, h.follows, h.counter, .inr ⟨rfl, rfl, hhw⟩, h.spare⟩
  | cell a v ha =>
    exact ⟨put_canonicalFrom h.store (Nat.zero_le a) ha, h.mask, h.follows, h.counter, h.ports, h.spare⟩

/-! ### The invariant of steps and runs -/

/-- A step keeps the invariant: a reset cycle establishes it, and in any other cycle the timer part and then the command's
effect keep it. The model's step answers R104's next state to a command error, so no premise about errors is needed. -/
theorem step_keeps_inv (h : Inv s) (hst : step s = .next t) : Inv t := by
  obtain ⟨u, hu, hcfg, -, hcycle⟩ := step_effect s
  obtain rfl : u = t := by rw [hst] at hu; cases hu; rfl
  rcases hcycle with ⟨-, rfl⟩ | ⟨-, -, he⟩
  · exact inv_of_block_reset rfl
  · have htimer := inv_timerBlock h (currentInput s).tick
    have hcommand := inv_commandEffect htimer he
    exact inv_congr (s := { s with block := u.block }) hcfg rfl hcommand

/-- Settles O48: `step_keeps_inv`, part by part of R73's cycle. -/
theorem everyStepKeepsInv : Obligations.EveryStepKeepsInv :=
  fun _ _ _ h hst => step_keeps_inv h hst

theorem inv_powerOn (c : Config) (ins : List CycleIn) : Inv (powerOn c ins) := inv_of_block_reset rfl

/-- Settles O49: the power-on block is the reset block, of the reference parameters in `State.reset`. -/
theorem invHoldsAtReset : Obligations.InvHoldsAtReset :=
  ⟨inv_of_block_reset rfl, inv_powerOn⟩

theorem inv_after_powerOn (c : Config) (ins : List CycleIn) (k : Nat) : Inv (after k (powerOn c ins)) :=
  after_invariant (fun _ _ => step_keeps_inv) (inv_powerOn c ins) k

/-- A cycle without reset that shows `slice_evt` moves the mask on and puts the old one into CMP; any other keeps both
(R69, R74). -/
theorem after_one_plane_cmp (h : (currentInput s).rst = false) :
    ((after 1 s).outs.sliceEvt = true ∧ (after 1 s).block.plane = adv s.block.plane ∧
        (after 1 s).block.cmp = s.block.plane) ∨
      ((after 1 s).outs.sliceEvt = false ∧ (after 1 s).block.plane = s.block.plane ∧
        (after 1 s).block.cmp = s.block.cmp) := by
  obtain ⟨hplane, -, hcmp, -, hevt, -⟩ := after_one_engine h
  rw [hplane, hcmp, hevt]
  rcases timerBlock_cases s.cfg s.block (nextTick s) with ⟨hnow, hb⟩ | ⟨hnow, -, -, -, hb⟩ | ⟨hnow, -, hb⟩ <;>
    unfold timerBlock at hb <;> rw [hb]
  · exact .inl ⟨hnow, rfl, rfl⟩
  · exact .inr ⟨hnow, rfl, rfl⟩
  · exact .inr ⟨hnow, rfl, rfl⟩

/-- Without reset, a mask that starts at 0 is 0 until the first SERVICE and one-hot from then on. -/
theorem legacy_mask_of_run (hr : NoReset s.inputs) (h0 : s.block.plane = 0) (k : Nat) :
    (serviceCount k s = 0 ∧ (after k s).block.plane = 0) ∨
      (1 ≤ serviceCount k s ∧ oneHot (after k s).block.plane = true) := by
  induction k with
  | zero => exact .inl ⟨rfl, h0⟩
  | succ k ih =>
    have hrk : (currentInput (after k s)).rst = false :=
      currentInput_rst (by rw [after_inputs]; exact noReset_drop hr k)
    have hcycle := after_one_plane_cmp hrk
    rw [← after_succ'] at hcycle
    rw [serviceCount_succ]
    rcases hcycle with ⟨hevt, hplane, -⟩ | ⟨hevt, hplane, -⟩ <;> rw [hevt, hplane]
    · refine .inr ⟨Nat.le_add_left 1 _, ?_⟩
      rcases ih with ⟨-, hz⟩ | ⟨-, h1⟩
      · rw [hz]; exact oneHot_adv_zero
      · exact oneHot_adv h1
    · exact ih

/-- Settles O45: the mask clause of the invariant, and for the legacy value the two phases of `legacy_mask_of_run`. -/
theorem oneHotMaskInEveryState : Obligations.OneHotMaskInEveryState := by
  constructor
  · intro c ins k hl _
    rcases (inv_after_powerOn c ins k).mask with h | ⟨h, -⟩
    · exact h
    · rw [after_cfg] at h
      exact absurd (hl.symm.trans h) Bool.false_ne_true
  · intro c ins k hl hr _
    have h0 : (powerOn c ins).block.plane = 0 := by simp [powerOn, resetBlock, Config.planeReset, hl]
    rcases legacy_mask_of_run (s := powerOn c ins) hr h0 k with ⟨hcount, hz⟩ | ⟨hcount, h1⟩
    · have hzero : oneHot (after k (powerOn c ins)).block.plane = false := by rw [hz]; decide
      simp [hzero, hcount]
    · exact iff_of_true h1 hcount

/-- Where the compare register's value comes from: RESET, the mask of a SERVICE, or the cycle before. -/
theorem after_one_cmp (s : State) :
    (after 1 s).block.cmp = s.cfg.cmpReset ∨ (after 1 s).block.cmp = s.block.plane ∨
      (after 1 s).block.cmp = s.block.cmp := by
  cases hr : (currentInput s).rst with
  | true => exact .inl (by simp [after_one_eq, stepResult, hr, resetBlock])
  | false =>
    rcases after_one_plane_cmp hr with ⟨-, -, hcmp⟩ | ⟨-, -, hcmp⟩
    · exact .inr (.inl hcmp)
    · exact .inr (.inr hcmp)

theorem cmp_history (h0 : s.block.cmp = s.cfg.cmpReset) (k : Nat) :
    (after k s).block.cmp = s.cfg.cmpReset ∨ ∃ j, j ≤ k ∧ (after k s).block.cmp = (after j s).block.plane := by
  induction k with
  | zero => exact .inl h0
  | succ k ih =>
    rw [after_succ']
    rcases after_one_cmp (after k s) with h | h | h <;> rw [h]
    · exact .inl (by rw [after_cfg])
    · exact .inr ⟨k, Nat.le_succ k, rfl⟩
    · exact ih.imp_right fun ⟨j, hj, hp⟩ => ⟨j, Nat.le_succ_of_le hj, hp⟩

/-- Settles O46: the counter clause of the invariant, and the history of CMP by induction on the cycles. -/
theorem counterStaysBelowCompare : Obligations.CounterStaysBelowCompare :=
  fun c ins k _ => ⟨(inv_after_powerOn c ins k).counter, cmp_history (s := powerOn c ins) rfl k⟩

/-! ### Reset values -/

theorem dutyAt_of_empty (h : s.block.duty = []) (a : Nat) :
    dutyAt s a = if a < s.cfg.n then some s.cfg.dutyReset else none := by
  rw [dutyAt, read_eq, h]
  rfl

/-- Settles O26: the store is empty, so its cells read as DUTY_RESET, and the registers are those of `resetBlock`. -/
theorem powerOnValues : Obligations.PowerOnValues :=
  ⟨fun _ _ => ⟨dutyAt_of_empty rfl, rfl, rfl, rfl, rfl, rfl, rfl⟩,
    dutyAt_of_empty rfl, rfl, rfl, rfl, rfl, rfl, rfl⟩

/-! ### Commands and the engine's registers -/

/-- The state with other contents of PLANE, CNT, CMP and OUT. -/
def withEngine (p n c o : Byte) (s : State) : State :=
  { s with block := { s.block with plane := p, cnt := n, cmp := c, out := o } }

/-- A command with a valid operand does not read the engine's registers: to replace their contents before it or after it
is the same. -/
theorem exec_withEngine {i : Instr} (p n c o : Byte) (hw : i.wf s.cfg = true) (h : exec i s = .next t) :
    exec i (withEngine p n c o s) = .next (withEngine p n c o t) := by
  cases i with
  | init =>
    rw [exec_init] at h ⊢
    cases h
    by_cases hh : s.cfg.hwSupported = true <;> simp [withEngine, hh, quiet]
  | setDuty ch v =>
    have hc : ch.toNat < s.cfg.n := of_decide_eq_true hw
    rw [exec_setDuty_valid hc] at h
    cases h
    exact exec_setDuty_valid (s := withEngine p n c o s) hc
  | getDuty ch =>
    have hc : ch.toNat < s.cfg.n := of_decide_eq_true hw
    rw [exec_getDuty_eq hc] at h
    cases h
    exact exec_getDuty_eq (s := withEngine p n c o s) hc

/-- No command's effect is on PLANE, CNT, CMP or OUT. -/
theorem commandEffect_engine {c : Config} {b b' : Block} (h : CommandEffect c b b') :
    b'.plane = b.plane ∧ b'.cnt = b.cnt ∧ b'.cmp = b.cmp ∧ b'.out = b.out := by
  cases h <;> exact ⟨rfl, rfl, rfl, rfl⟩

/-- Only INIT writes EN and OE. -/
theorem exec_keeps_ports {i : Instr} (hw : i.wf s.cfg = true) (hi : i ≠ .init) (h : exec i s = .next t) :
    t.block.en = s.block.en ∧ t.block.oe = s.block.oe := by
  cases i with
  | init => exact absurd rfl hi
  | setDuty ch v =>
    rw [exec_setDuty_valid (of_decide_eq_true hw)] at h
    cases h
    exact ⟨rfl, rfl⟩
  | getDuty ch =>
    rw [exec_getDuty_eq (of_decide_eq_true hw)] at h
    cases h
    exact ⟨rfl, rfl⟩

/-- Settles O16: `exec_withEngine` for the reads, `commandEffect_engine` and `exec_keeps_ports` for the writes. -/
theorem commandsNeverReachEngineRegisters : Obligations.CommandsNeverReachEngineRegisters := by
  intro i s t p n c o hw h
  obtain ⟨u, hu, -, -, -, he⟩ := exec_effect i s
  obtain rfl : u = t := by rw [h] at hu; cases hu; rfl
  obtain ⟨hplane, hcnt, hcmp, hout⟩ := commandEffect_engine he
  exact ⟨exec_withEngine p n c o hw h, hplane, hcnt, hcmp, hout, fun hi => exec_keeps_ports hw hi h⟩

/-! ### The outputs of a step -/

theorem lt_of_decodeChecked_getDuty {n : Nat} {w : CmdWord} {ch : BitVec 4} (h : decodeChecked n w = .getDuty ch) :
    ch.toNat < n := by
  rcases decodeChecked_cases n w with ⟨-, h'⟩ | ⟨_, _, -, ⟨-, h'⟩ | ⟨-, h'⟩⟩ | ⟨_, -, ⟨hc, h'⟩ | ⟨-, h'⟩⟩ | ⟨-, h'⟩ <;>
    rw [h] at h' <;> cases h'
  exact hc

/-- The outputs that R73's cycle leaves are those of the ports table: in a reset cycle, in a cycle without command, and for
each of the decoder's five results. -/
theorem stepResult_outs (c : Config) (b : Block) (i : CycleIn) (rest : List CycleIn) (v : Option CmdError) :
    (stepResult c b i rest v).outs = cycleOutputs c b i := by
  unfold stepResult cycleOutputs
  cases i.rst with
  | true => rfl
  | false =>
    unfold commandResult
    cases i.cmdValid with
    | false => rfl
    | true =>
      cases hd : decodeChecked c.n i.cmd with
      | init => cases c.hwSupported <;> rfl
      | setDuty ch val => rfl
      | getDuty ch => simp [read_eq, channelIndex, lt_of_decodeChecked_getDuty hd, CycleOut.idle]
      | badChannel => rfl
      | badOpcode => rfl

/-- Settles O31: the closed form of a step, and `stepResult_outs`. -/
theorem outputsMatchThePortTable : Obligations.OutputsMatchThePortTable :=
  fun s => ⟨_, step_eq s, stepResult_outs s.cfg s.block (currentInput s) s.inputs.tail s.violation⟩

end Sys2Proof.Proofs

/-! ## The Channel Store (20_memory.md)
First what a put does to the reads and to the snapshot, then what a cycle does to the store, then how long a run keeps a
cell; the three statements are assembled from these. -/

namespace Sys2Proof.Proofs

open Machine Laws

variable {s t : State} {ch : BitVec 4} {val : Byte}

/-! ### Reads after a put -/

theorem read_put_self {c : Config} {m : Memory} {a : Nat} (hm : Memory.wf c m = true) (ha : a < c.n) :
    Memory.read c (m.put c.dutyReset a val) a = some val := by
  obtain ⟨-, hself, -, -⟩ := write_spec hm (write_eq_some ha)
  exact hself

theorem read_put_other {c : Config} {m : Memory} {a b : Nat} (h : b ≠ a) :
    Memory.read c (m.put c.dutyReset a val) b = Memory.read c m b := by
  simp [read_eq, lookup_put_other h]

/-- The snapshot after a put is the old one with one cell replaced. -/
theorem snapshot_put {c : Config} {m : Memory} {a : Nat} (hm : Memory.wf c m = true) (ha : a < c.n) :
    Memory.snapshot c (m.put c.dutyReset a val) = (Memory.snapshot c m).set a val := by
  apply List.ext_getElem?
  intro b
  rw [snapshot_getElem?]
  by_cases hb : b = a
  · rw [hb, read_put_self hm ha, List.getElem?_set_self (by simpa using ha)]
  · rw [read_put_other hb, List.getElem?_set_ne (Ne.symm hb), snapshot_getElem?]

/-! ### Reads and writes repeated -/

/-- A read answers from the cell's value alone (R59). -/
theorem exec_getDuty_of_cell {v : Byte} (h : dutyAt s (channelIndex ch) = some v) :
    exec (.getDuty ch) s = .next (respond v s) := by
  simp [exec, execGetDuty, h]

theorem exec_setDuty_twice (hm : Memory.wf s.cfg s.block.duty = true) (hc : ch.toNat < s.cfg.n)
    (h : exec (.setDuty ch val) s = .next t) : exec (.setDuty ch val) t = .next t := by
  rw [exec_setDuty_valid hc] at h
  injection h with h
  have htc : ch.toNat < t.cfg.n := by rw [← h]; exact hc
  have hput : (s.block.duty.put s.cfg.dutyReset ch.toNat val).put s.cfg.dutyReset ch.toNat val =
      s.block.duty.put s.cfg.dutyReset ch.toNat val := put_put hm
  rw [exec_setDuty_valid htc, ← h]
  simp [quiet, hput]

/-- Settles O14: a read's answer is a function of its cell, a response is no part of the block, and a second put of the
same value is absorbed by the first (`put_put`). -/
theorem readsAndWritesAreIdempotent : Obligations.ReadsAndWritesAreIdempotent := by
  refine ⟨fun s ch hc => ?_, fun s t ch hc _ hcell => ?_, service_duty, fun s ch v hm hc => ?_⟩
  · obtain ⟨v, hv, hs⟩ := exec_getDuty_valid hc
    have ht : exec (.getDuty ch) (respond v s) = .next (respond v (respond v s)) := exec_getDuty_of_cell hv
    exact ⟨_, hs, rfl, _, ht, rfl⟩
  · obtain ⟨v, hv, hs⟩ := exec_getDuty_valid hc
    exact ⟨_, _, hs, exec_getDuty_of_cell (hcell.trans hv), rfl, rfl⟩
  · exact ⟨_, exec_setDuty_valid hc, exec_setDuty_twice hm hc (exec_setDuty_valid hc)⟩

/-! ### What a cycle does to the store -/

/-- A command changes the store only where it is a `SET_DUTY`, and then by one put to the cell that it names. -/
theorem commandResult_store (i : CycleIn) (s : State) :
    (commandResult i s).block.duty = s.block.duty ∨
      ∃ ch v, i.cmdValid = true ∧ decode i.cmd = .instr (.setDuty ch v) ∧
        (commandResult i s).block.duty = s.block.duty.put s.cfg.dutyReset (channelIndex ch) v := by
  unfold commandResult
  cases i.cmdValid with
  | false => exact .inl rfl
  | true =>
    rcases decodeChecked_cases s.cfg.n i.cmd with ⟨-, h⟩ | ⟨ch, v, hd, ⟨-, h⟩ | ⟨-, h⟩⟩ | ⟨ch, -, ⟨-, h⟩ | ⟨-, h⟩⟩ |
      ⟨-, h⟩ <;> rw [h]
    · cases s.cfg.hwSupported <;> exact .inl rfl
    · exact .inr ⟨ch, v, rfl, hd, rfl⟩
    all_goals exact .inl rfl

theorem step_of_no_reset (h : (currentInput s).rst = false) :
    step s = commandPart (currentInput s) (timerPart (nextTick s) (dropInput s)) := by
  simp [step, cycle, nextTick, h]

/-- The store after a cycle without reset: the timer part has not touched it. -/
theorem after_one_duty (h : (currentInput s).rst = false) :
    (after 1 s).block.duty = s.block.duty ∨
      ∃ ch v, (currentInput s).cmdValid = true ∧ decode (currentInput s).cmd = .instr (.setDuty ch v) ∧
        (after 1 s).block.duty = s.block.duty.put s.cfg.dutyReset (channelIndex ch) v := by
  have hstep := step_after_one s
  rw [step_of_no_reset h, commandPart_eq] at hstep
  injection hstep with hafter
  have htimer : (timerPart (nextTick s) (dropInput s)).block.duty = s.block.duty := timerBlock_duty _ _ _
  rw [← hafter, ← htimer]
  exact commandResult_store _ _

/-- A cell that changes in a cycle without reset is the one that the cycle's `SET_DUTY` names (R36). -/
theorem setDuty_of_cell_changed (hr : (currentInput s).rst = false) {a : Nat}
    (h : dutyAt (after 1 s) a ≠ dutyAt s a) :
    ∃ ch v, (currentInput s).cmdValid = true ∧ decode (currentInput s).cmd = .instr (.setDuty ch v) ∧
      channelIndex ch = a := by
  rw [dutyAt, dutyAt, after_cfg] at h
  rcases after_one_duty hr with he | ⟨ch, v, hv, hd, he⟩ <;> rw [he] at h
  · exact absurd rfl h
  · exact ⟨ch, v, hv, hd, by_contra fun hne => h (read_put_other (Ne.symm hne))⟩

/-- Settles O34: each cell that changes is named by the cycle's one command. -/
theorem oneCellPerCycle : Obligations.OneCellPerCycle := by
  intro s _ hr
  refine ⟨_, step_after_one s, fun a b ha hb => ?_⟩
  obtain ⟨ch, v, -, hd, rfl⟩ := setDuty_of_cell_changed hr ha
  obtain ⟨ch', v', -, hd', rfl⟩ := setDuty_of_cell_changed hr hb
  rw [hd] at hd'
  cases hd'
  rfl

/-- A cycle with a valid `SET_DUTY`: the timer part on the old store, and one put. -/
theorem after_one_setDuty (hc : ch.toNat < s.cfg.n) (hr : (currentInput s).rst = false)
    (hv : (currentInput s).cmdValid = true) (hd : decode (currentInput s).cmd = .instr (.setDuty ch val)) :
    (after 1 s).block = { timerBlock s.cfg s.block (nextTick s) with
      duty := s.block.duty.put s.cfg.dutyReset (channelIndex ch) val } := by
  have hstep := step_after_one s
  rw [step_of_no_reset hr, commandPart, hv, if_pos rfl, hd] at hstep
  have hexec := exec_setDuty_valid (s := timerPart (nextTick s) (dropInput s)) (v := val) hc
  injection hexec.symm.trans hstep with hafter
  rw [← hafter, ← timerBlock_duty s.cfg s.block (nextTick s)]
  rfl

/-! ### The word that a SERVICE writes -/

theorem timerBlock_out (c : Config) (b : Block) (tick : Bool) :
    (timerBlock c b tick).out =
      if serviceNow tick b then outw c.ch0Raw (Memory.snapshot c b.duty) b.plane else b.out := by
  rcases timerBlock_cases c b tick with ⟨hs, h⟩ | ⟨hs, -, -, -, h⟩ | ⟨hs, -, h⟩ <;> simp [hs, h]

/-- A cycle that shows `slice_evt` writes the word of the store, and the mask, that it starts with (R69, R74). -/
theorem after_one_out_of_sliceEvt (h : (after 1 s).outs.sliceEvt = true) :
    (after 1 s).block.out = outw s.cfg.ch0Raw (Memory.snapshot s.cfg s.block.duty) s.block.plane := by
  cases hr : (currentInput s).rst with
  | true =>
    rw [after_one_eq, stepResult, hr] at h
    cases h
  | false =>
    obtain ⟨-, -, -, hout, hevt, -⟩ := after_one_engine hr
    have hnow : serviceNow (nextTick s) s.block = true := hevt.symm.trans h
    have hword := timerBlock_out s.cfg s.block (nextTick s)
    rw [if_pos hnow] at hword
    exact hout.trans hword

/-! ### How long a cell keeps its value -/

/-- What holds of the next `k + 1` given cycles and of an idle cycle holds of the current one. -/
theorem currentInput_of_take {P : CycleIn → Prop} {k : Nat} (hidle : P CycleIn.idle)
    (h : ∀ i ∈ s.inputs.take (k + 1), P i) : P (currentInput s) := by
  unfold currentInput
  cases hs : s.inputs with
  | nil => exact hidle
  | cons i l => exact h i (by simp [hs])

/-- The cycle neither resets the block nor stores to channel `ch`. -/
def LeavesCell (ch : BitVec 4) (i : CycleIn) : Prop :=
  i.rst = false ∧ (i.cmdValid = true → ∀ v, decode i.cmd ≠ .instr (.setDuty ch v))

theorem leavesCell_idle (ch : BitVec 4) : LeavesCell ch CycleIn.idle := ⟨rfl, nofun⟩

theorem dutyAt_after_one_of_leavesCell (h : LeavesCell ch (currentInput s)) :
    dutyAt (after 1 s) (channelIndex ch) = dutyAt s (channelIndex ch) := by
  obtain ⟨hr, hno⟩ := h
  by_contra hne
  obtain ⟨ch', v, hv, hd, hch⟩ := setDuty_of_cell_changed hr hne
  obtain rfl : ch' = ch := BitVec.eq_of_toNat_eq hch
  exact hno hv v hd

theorem dutyAt_after_of_leavesCell (k : Nat) (h : ∀ i ∈ s.inputs.take k, LeavesCell ch i) :
    dutyAt (after k s) (channelIndex ch) = dutyAt s (channelIndex ch) := by
  induction k generalizing s with
  | zero => rfl
  | succ k ih =>
    have hfirst := currentInput_of_take (leavesCell_idle ch) h
    have hrest : ∀ i ∈ (after 1 s).inputs.take k, LeavesCell ch i := by
      intro i hi
      rw [after_inputs, List.take_drop] at hi
      exact h i (by simpa [Nat.add_comm] using List.mem_of_mem_drop hi)
    rw [after_succ, ih hrest, dutyAt_after_one_of_leavesCell hfirst]

/-- Settles O33: the cycle's own SERVICE reads the store before the put, every later one the store after it, and the cell
stays until a cycle resets the block or stores to it. -/
theorem writeIsSeenFromTheNextCycle : Obligations.WriteIsSeenFromTheNextCycle := by
  intro s ch val hm hc hr hv hd
  have hblock := after_one_setDuty hc hr hv hd
  have hcell : dutyAt (after 1 s) (channelIndex ch) = some val := by
    rw [dutyAt, after_cfg, hblock]
    exact read_put_self hm hc
  have hsnap : Memory.snapshot (after 1 s).cfg (after 1 s).block.duty =
      (Memory.snapshot s.cfg s.block.duty).set (channelIndex ch) val := by
    rw [after_cfg, hblock]
    exact snapshot_put hm hc
  refine ⟨_, step_after_one s, hcell, ?_, hsnap, fun _ => ⟨_, step_after_one _, fun hevt => ?_⟩, fun k hk => ?_⟩
  · rw [hblock]
    exact timerBlock_out s.cfg s.block (nextTick s)
  · rw [after_one_out_of_sliceEvt hevt, hsnap, after_cfg]
  · rw [dutyAt_after_of_leavesCell k fun i hi => ?_, hcell]
    obtain ⟨hrst, -, hno⟩ := hk i hi
    exact ⟨hrst, hno⟩

end Sys2Proof.Proofs

/-! ## Encoding (30_encoding.md)
First the round trip, the three fields of a word as numbers and the decoder by its rows, then what a presented word
executes; last the pseudo-operations of the stimulus, as runs. -/

namespace Sys2Proof.Proofs

open Machine Laws

/-! ### Decoding a word in format C -/

theorem decode_formatC (op ch : BitVec 4) (val : Byte) :
    decode (formatC op ch val) =
      if op = 0x1#4 then .instr .init
      else if op = 0x2#4 then .instr (.setDuty ch val)
      else if op = 0x3#4 then .instr (.getDuty ch)
      else .badOpcode := by
  rw [decode, opField_formatC, chField_formatC, valField_formatC]

/-- Settles O1: a canonical word is in format C, and its fields are what the row's operands were. -/
theorem decodeEncodeRoundTrip : Obligations.DecodeEncodeRoundTrip := by
  intro i
  cases i with
  | init => exact decode_formatC 0x1#4 0x0#4 0x00#8
  | setDuty ch val => exact decode_formatC 0x2#4 ch val
  | getDuty ch => exact decode_formatC 0x3#4 ch 0x00#8

/-! ### The fields as numbers -/

section Fields
variable (w : CmdWord)

theorem opField_toNat : (opField w).toNat = w.toNat / 4096 := by
  have hw := w.isLt
  rw [opField, BitVec.extractLsb'_toNat, Nat.shiftRight_eq_div_pow]
  omega

theorem chField_toNat : (chField w).toNat = w.toNat / 256 % 16 := by
  rw [chField, BitVec.extractLsb'_toNat, Nat.shiftRight_eq_div_pow]

theorem valField_toNat : (valField w).toNat = w.toNat % 256 := by
  rw [valField, BitVec.extractLsb'_toNat, Nat.shiftRight_zero]

theorem chField_eq_ofNat : chField w = BitVec.ofNat 4 (w.toNat / 256) :=
  BitVec.eq_of_toNat_eq (by rw [chField_toNat, BitVec.toNat_ofNat])

theorem valField_eq_ofNat : valField w = BitVec.ofNat 8 w.toNat :=
  BitVec.eq_of_toNat_eq (by rw [valField_toNat, BitVec.toNat_ofNat])

theorem opField_eq_iff (op : BitVec 4) : opField w = op ↔ w.toNat / 4096 = op.toNat := by
  rw [← BitVec.toNat_inj, opField_toNat]

end Fields

theorem formatC_toNat (op ch : BitVec 4) (val : Byte) :
    (formatC op ch val).toNat = op.toNat * 4096 + ch.toNat * 256 + val.toNat := by
  have hop := opField_toNat (formatC op ch val)
  have hch := chField_toNat (formatC op ch val)
  have hval := valField_toNat (formatC op ch val)
  rw [opField_formatC] at hop
  rw [chField_formatC] at hch
  rw [valField_formatC] at hval
  omega

/-- Every word is put together from its three fields (R48). -/
theorem formatC_fields (w : CmdWord) : formatC (opField w) (chField w) (valField w) = w := by
  apply BitVec.eq_of_toNat_eq
  rw [formatC_toNat, opField_toNat, chField_toNat, valField_toNat]
  omega

/-- Settles O4: a field is a shift and a remainder, and above bit 15 a word has nothing to cut off. -/
theorem fieldsOfTheCommandWord : Obligations.FieldsOfTheCommandWord :=
  fun w => ⟨opField_toNat w, chField_toNat w, valField_toNat w⟩

/-! ### The decoder, row by row (R50, R52) -/

section Rows
variable {w : CmdWord} {ch : BitVec 4} {val : Byte}

theorem formatC_and (op ch op' ch' : BitVec 4) (val val' : Byte) :
    formatC op ch val &&& formatC op' ch' val' = formatC (op &&& op') (ch &&& ch') (val &&& val') := by
  rw [formatC, formatC, BitVec.and_append, BitVec.and_append]
  rfl

/-- The mask of the opcode map keeps the opcode field and clears the operands. -/
theorem and_rowMask (w : CmdWord) : w &&& 0xF000 = formatC (opField w) 0x0#4 0x00#8 := by
  have hop : opField w &&& 0xF#4 = opField w := BitVec.and_allOnes
  calc
    w &&& 0xF000 = formatC (opField w) (chField w) (valField w) &&& formatC 0xF#4 0x0#4 0x00#8 := by
      rw [formatC_fields]; rfl
    _ = formatC (opField w) 0x0#4 0x00#8 := by
      rw [formatC_and, hop, BitVec.and_zero, BitVec.and_zero]

theorem and_rowMask_eq_iff (op : BitVec 4) : w &&& 0xF000 = formatC op 0x0#4 0x00#8 ↔ opField w = op := by
  rw [and_rowMask]
  refine ⟨fun h => ?_, fun h => by rw [h]⟩
  have hop := congrArg opField h
  rwa [opField_formatC, opField_formatC] at hop

/-- What a word can decode to, by its opcode field. -/
theorem decode_cases (w : CmdWord) :
    (opField w = 0x1#4 ∧ decode w = .instr .init) ∨
    (opField w = 0x2#4 ∧ decode w = .instr (.setDuty (chField w) (valField w))) ∨
    (opField w = 0x3#4 ∧ decode w = .instr (.getDuty (chField w))) ∨
    ((opField w = 0x0#4 ∨ 4 ≤ (opField w).toNat) ∧ decode w = .badOpcode) := by
  unfold decode
  by_cases h1 : opField w = 0x1#4
  · simp [h1]
  · by_cases h2 : opField w = 0x2#4
    · simp [h2]
    · by_cases h3 : opField w = 0x3#4
      · simp [h3]
      · have hreserved : opField w = 0x0#4 ∨ 4 ≤ (opField w).toNat := by bv_omega
        simp [h1, h2, h3, hreserved]

theorem decode_eq_init_iff : decode w = .instr .init ↔ opField w = 0x1#4 := by
  rcases decode_cases w with ⟨ho, hd⟩ | ⟨ho, hd⟩ | ⟨ho, hd⟩ | ⟨ho | ho, hd⟩ <;> simp [hd, ho]
  bv_omega

theorem decode_eq_setDuty_iff :
    decode w = .instr (.setDuty ch val) ↔ opField w = 0x2#4 ∧ ch = chField w ∧ val = valField w := by
  rcases decode_cases w with ⟨ho, hd⟩ | ⟨ho, hd⟩ | ⟨ho, hd⟩ | ⟨ho | ho, hd⟩ <;> simp [hd, ho, eq_comm]
  bv_omega

theorem decode_eq_getDuty_iff : decode w = .instr (.getDuty ch) ↔ opField w = 0x3#4 ∧ ch = chField w := by
  rcases decode_cases w with ⟨ho, hd⟩ | ⟨ho, hd⟩ | ⟨ho, hd⟩ | ⟨ho | ho, hd⟩ <;> simp [hd, ho, eq_comm]
  bv_omega

theorem decode_eq_badOpcode_iff : decode w = .badOpcode ↔ opField w = 0x0#4 ∨ 4 ≤ (opField w).toNat := by
  rcases decode_cases w with ⟨ho, hd⟩ | ⟨ho, hd⟩ | ⟨ho, hd⟩ | ⟨ho, hd⟩ <;> simp [hd, ho]

end Rows

/-- Settles O2: the mask leaves the opcode field, and the operands are the other two fields as numbers. -/
theorem opcodeMapByMaskAndMatch : Obligations.OpcodeMapByMaskAndMatch := by
  refine ⟨fun w => ?_, fun w ch val => ?_, fun w ch => ?_, fun w => ?_, rfl, fun ch val => ?_, fun ch => ?_⟩
  · exact decode_eq_init_iff.trans (and_rowMask_eq_iff 0x1#4).symm
  · rw [decode_eq_setDuty_iff, ← and_rowMask_eq_iff, ← chField_toNat, ← valField_toNat, BitVec.toNat_inj,
      BitVec.toNat_inj]
    rfl
  · rw [decode_eq_getDuty_iff, ← and_rowMask_eq_iff, ← chField_toNat, BitVec.toNat_inj]
    rfl
  · rw [decode_eq_badOpcode_iff, opField_eq_iff, opField_toNat]
    rfl
  · exact formatC_toNat 0x2#4 ch val
  · exact formatC_toNat 0x3#4 ch 0x00#8

/-- Settles O3: the rows of INIT and GET_DUTY do not mention the fields that they ignore. -/
theorem unusedFieldsAreIgnored : Obligations.UnusedFieldsAreIgnored := by
  refine ⟨fun w x hw hx => ?_, fun w x hw hx hch => ?_, rfl, fun ch => ?_, rfl, rfl⟩
  · have hdw : decode w = .instr .init := decode_eq_init_iff.2 hw
    exact ⟨hdw, (decode_eq_init_iff.2 hx).trans hdw.symm⟩
  · have hdw : decode w = .instr (.getDuty (chField w)) := decode_eq_getDuty_iff.2 ⟨hw, rfl⟩
    exact (decode_eq_getDuty_iff.2 ⟨hx, hch.symm⟩).trans hdw.symm
  · have hword : (encode (.getDuty ch)).toNat = 0x3 * 4096 + ch.toNat * 256 + 0 := formatC_toNat 0x3#4 ch 0x00#8
    omega

/-! ### What a presented word executes (R52, R53, R55) -/

section Execution
variable {i : CycleIn} {s : State}

theorem commandPart_of_instr {c : Instr} (hv : i.cmdValid = true) (hd : decode i.cmd = .instr c) :
    commandPart i s = exec c s := by
  rw [commandPart, if_pos hv, hd]

theorem commandPart_of_badOpcode (hv : i.cmdValid = true) (hd : decode i.cmd = .badOpcode) :
    commandPart i s = .next (raiseCmdError .eOpcode s) := by
  rw [commandPart, if_pos hv, hd]

theorem commandPart_of_no_command (hv : i.cmdValid = false) : commandPart i s = .next (quiet s) := by
  rw [commandPart, if_neg (by simp [hv])]

end Execution

/-- Settles O12: without a cell of that index both store commands raise the error. -/
theorem outOfRangeChannelRaises : Obligations.OutOfRangeChannelRaises := by
  refine ⟨fun s ch val hch => ?_, fun w hw => decode_eq_init_iff.2 hw⟩
  have hno : ¬ch.toNat < s.cfg.n := Nat.not_lt.2 hch
  exact ⟨_, exec_setDuty_invalid hno, exec_getDuty_invalid hno, rfl, rfl, rfl, rfl⟩

/-- Settles O17: a reserved opcode selects no row, so the word raises the error; without a word the outputs are quiet. -/
theorem reservedOpcodeRaises : Obligations.ReservedOpcodeRaises :=
  ⟨fun _ _ hv hop => ⟨_, commandPart_of_badOpcode hv (decode_eq_badOpcode_iff.2 hop), rfl, rfl, rfl, rfl⟩, rfl,
    fun _ _ hv => commandPart_of_no_command hv⟩

theorem decodeChecked_eq_of_numbers (n : Nat) (w : CmdWord) :
    decodeChecked n w =
      if w.toNat / 4096 = 1 then .init
      else if w.toNat / 4096 = 2 then
        if w.toNat / 256 % 16 < n then .setDuty (BitVec.ofNat 4 (w.toNat / 256)) (BitVec.ofNat 8 w.toNat) else .badChannel
      else if w.toNat / 4096 = 3 then
        if w.toNat / 256 % 16 < n then .getDuty (BitVec.ofNat 4 (w.toNat / 256)) else .badChannel
      else .badOpcode := by
  rw [decodeChecked, ← chField_toNat, ← chField_eq_ofNat, ← valField_eq_ofNat]
  simp only [opField_eq_iff, BitVec.reduceToNat]
  by_cases hch : (chField w).toNat < n
  · simp only [hch, and_true, if_true]
    split_ifs <;> rfl
  · simp only [hch, and_false, if_false]

/-- Settles O5: the three fields as numbers; then for each result the command it stands for, where a channel that the
decoder rejects is one that the command itself rejects. -/
theorem decodingAlgorithmAndItsExecution : Obligations.DecodingAlgorithmAndItsExecution := by
  refine ⟨decodeChecked_eq_of_numbers, fun i s hv => ?_⟩
  rcases decodeChecked_cases s.cfg.n i.cmd with ⟨hd, h⟩ | ⟨ch, val, hd, ⟨-, h⟩ | ⟨hc, h⟩⟩ |
    ⟨ch, hd, ⟨-, h⟩ | ⟨hc, h⟩⟩ | ⟨hd, h⟩ <;> rw [h]
  · exact commandPart_of_instr hv hd
  · exact commandPart_of_instr hv hd
  · exact ⟨_, (commandPart_of_instr hv hd).trans (exec_setDuty_invalid hc), rfl, rfl⟩
  · exact commandPart_of_instr hv hd
  · exact ⟨_, (commandPart_of_instr hv hd).trans (exec_getDuty_invalid hc), rfl, rfl⟩
  · exact ⟨_, commandPart_of_badOpcode hv hd, rfl, rfl⟩

/-! ### The pseudo-operations of the stimulus: ticks (R57) -/

section Pseudo
variable {s : State}

/-- A cycle without reset and command is the timer part alone. -/
theorem after_one_block_of_no_command (hr : (currentInput s).rst = false) (hv : (currentInput s).cmdValid = false) :
    (after 1 s).block = timerBlock s.cfg s.block (nextTick s) := by
  have hstep := step_after_one s
  rw [step_of_no_reset hr, commandPart_of_no_command hv] at hstep
  injection hstep with hafter
  rw [← hafter]
  rfl

/-- No cycle of the list resets the block or presents a command. -/
def CommandFree (ins : List CycleIn) : Prop := ∀ i ∈ ins, i.rst = false ∧ i.cmdValid = false

/-- The block after `n` cycles that each carry a tick and no command. -/
def tickedBlock (c : Config) (n : Nat) (b : Block) : Block := (fun b => timerBlock c b true)^[n] b

/-- In a run without resets and commands only the number of ticks counts. -/
theorem after_block_of_commandFree {ins : List CycleIn} (hin : s.inputs = ins) (hfree : CommandFree ins) :
    (after ins.length s).block = tickedBlock s.cfg (ticksIn ins) s.block := by
  induction ins generalizing s with
  | nil => rfl
  | cons i ins ih =>
    have hcur : currentInput s = i := by rw [currentInput, hin]; rfl
    have htail : (after 1 s).inputs = ins := by rw [after_inputs, hin]; rfl
    obtain ⟨⟨hr, hv⟩, hrest⟩ := List.forall_mem_cons.1 hfree
    have hone : (after 1 s).block = timerBlock s.cfg s.block i.tick := by
      rw [after_one_block_of_no_command (by rw [hcur, hr]) (by rw [hcur, hv]), nextTick, hcur]
    rw [List.length_cons, after_succ, ih htail hrest, after_cfg, hone]
    cases ht : i.tick with
    | false => simp [ticksIn, ht, timerBlock]
    | true => simp [ticksIn, ht, tickedBlock]

theorem commandFree_replicate (n : Nat) {i : CycleIn} (hr : i.rst = false) (hv : i.cmdValid = false) :
    CommandFree (List.replicate n i) := by
  intro j hj
  rw [List.eq_of_mem_replicate hj]
  exact ⟨hr, hv⟩

theorem ticksIn_replicate (n : Nat) (i : CycleIn) : ticksIn (List.replicate n i) = if i.tick then n else 0 :=
  List.countP_replicate

theorem ticksRealCycles_length {div : Nat} (hdiv : 1 ≤ div) (n : Nat) : (ticksRealCycles div n).length = n * div := by
  induction n with
  | zero => rw [Nat.zero_mul]; rfl
  | succ n ih =>
    rw [ticksRealCycles, List.length_cons, List.length_append, List.length_replicate, ih, Nat.succ_mul]
    omega

theorem ticksRealCycles_ticksIn (div n : Nat) : ticksIn (ticksRealCycles div n) = n := by
  induction n with
  | zero => rfl
  | succ n ih =>
    have hidle : ticksIn (List.replicate (div - 1) CycleIn.idle) = 0 := ticksIn_replicate (div - 1) CycleIn.idle
    rw [ticksIn] at hidle ih
    rw [ticksRealCycles, ticksIn, List.countP_cons_of_pos rfl, List.countP_append, hidle, ih, Nat.zero_add]

theorem ticksRealCycles_commandFree (div n : Nat) : CommandFree (ticksRealCycles div n) := by
  induction n with
  | zero => nofun
  | succ n ih =>
    have hidle : CommandFree (List.replicate (div - 1) CycleIn.idle) := commandFree_replicate _ rfl rfl
    exact List.forall_mem_cons.2 ⟨⟨rfl, rfl⟩, List.forall_mem_append.2 ⟨hidle, ih⟩⟩

theorem after_ticksReal_block (s : State) {div : Nat} (hdiv : 1 ≤ div) (n : Nat) :
    (after (n * div) { s with inputs := (Line.ticksReal n).cycles div }).block =
      tickedBlock s.cfg n s.block := by
  have h := after_block_of_commandFree (s := { s with inputs := ticksRealCycles div n }) rfl
    (ticksRealCycles_commandFree div n)
  rwa [ticksRealCycles_length hdiv, ticksRealCycles_ticksIn] at h

theorem after_replicate_block (s : State) (n : Nat) {i : CycleIn} (hr : i.rst = false) (hv : i.cmdValid = false) :
    (after n { s with inputs := List.replicate n i }).block =
      tickedBlock s.cfg (if i.tick then n else 0) s.block := by
  have h := after_block_of_commandFree (s := { s with inputs := List.replicate n i }) rfl
    (commandFree_replicate n hr hv)
  rwa [List.length_replicate, ticksIn_replicate] at h

/-! ### The pseudo-operations of the stimulus: `SET_ALL` (R57) -/

variable {vs : List Byte} {lo : Nat}

/-- The 4-bit channel field names every cell of the block. -/
theorem channelIndex_ofNat {c : Config} {a : Nat} (ha : a < c.n) : channelIndex (BitVec.ofNat 4 a) = a := by
  have hn : c.n ≤ 8 := c.topChannel.isLt
  rw [channelIndex, BitVec.toNat_ofNat]
  omega

/-- The stores to the channels from `lo` on leave a channel below `lo` alone. -/
theorem setAllCycles_leavesCell {c : Config} {ch : BitVec 4} (hch : channelIndex ch < lo)
    (hlo : lo + vs.length ≤ c.n) : ∀ i ∈ setAllCycles lo vs, LeavesCell ch i := by
  induction vs generalizing lo with
  | nil => nofun
  | cons v vs ih =>
    rw [List.length_cons] at hlo
    refine List.forall_mem_cons.2 ⟨⟨rfl, fun _ w hd => ?_⟩, ih (by omega) (by omega)⟩
    have hsame : Decoded.instr (.setDuty (BitVec.ofNat 4 lo) v) = .instr (.setDuty ch w) :=
      (decodeEncodeRoundTrip _).symm.trans hd
    injection hsame with hsame
    injection hsame with hchannel
    rw [← hchannel, channelIndex_ofNat (c := c) (by omega)] at hch
    exact Nat.lt_irrefl lo hch

theorem dutyAt_after_setAll_below (hin : s.inputs = setAllCycles lo vs) (hlo : lo + vs.length ≤ s.cfg.n) {a : Nat}
    (ha : a < lo) (k : Nat) : dutyAt (after k s) a = dutyAt s a := by
  have hindex : channelIndex (BitVec.ofNat 4 a) = a := channelIndex_ofNat (c := s.cfg) (by omega)
  rw [← hindex] at ha ⊢
  refine dutyAt_after_of_leavesCell k fun i hi => setAllCycles_leavesCell ha hlo i ?_
  rw [← hin]
  exact List.mem_of_mem_take hi

/-- The first cycle of the expansion stores the first value; the cycles that remain are the expansion of the others. -/
theorem after_one_of_setAll {v : Byte} (hin : s.inputs = setAllCycles lo (v :: vs)) (hlo : lo < s.cfg.n) :
    (after 1 s).block.duty = s.block.duty.put s.cfg.dutyReset lo v ∧
      (after 1 s).inputs = setAllCycles (lo + 1) vs := by
  have hindex : channelIndex (BitVec.ofNat 4 lo) = lo := channelIndex_ofNat hlo
  have hcur : currentInput s = CycleIn.command (encode (.setDuty (BitVec.ofNat 4 lo) v)) := by
    rw [currentInput, hin]; rfl
  have hd : decode (currentInput s).cmd = .instr (.setDuty (BitVec.ofNat 4 lo) v) := by
    rw [hcur]; exact decodeEncodeRoundTrip _
  have hch : (BitVec.ofNat 4 lo).toNat < s.cfg.n := hindex.trans_lt hlo
  refine ⟨?_, by rw [after_inputs, hin]; rfl⟩
  rw [after_one_setDuty hch (by rw [hcur]; rfl) (by rw [hcur]; rfl) hd, hindex]

/-- The cells from `lo` on hold the values in index order: each is stored in its cycle, and no later cycle touches it. -/
theorem dutyAt_after_setAll (hm : Memory.wf s.cfg s.block.duty = true) (hin : s.inputs = setAllCycles lo vs)
    (hlo : lo + vs.length ≤ s.cfg.n) {j : Nat} (hj : j < vs.length) :
    dutyAt (after vs.length s) (lo + j) = vs[j]? := by
  induction vs generalizing s lo j with
  | nil => cases hj
  | cons v vs ih =>
    rw [List.length_cons] at hlo hj
    have hfirst : lo < s.cfg.n := by omega
    obtain ⟨hduty, htail⟩ := after_one_of_setAll hin hfirst
    have hrest : lo + 1 + vs.length ≤ (after 1 s).cfg.n := by rw [after_cfg]; omega
    rw [List.length_cons, after_succ]
    cases j with
    | zero =>
      rw [Nat.add_zero, dutyAt_after_setAll_below htail hrest (Nat.lt_succ_self lo), dutyAt, after_cfg, hduty]
      exact read_put_self hm hfirst
    | succ j =>
      have hwf : Memory.wf (after 1 s).cfg (after 1 s).block.duty = true := by
        rw [after_cfg, hduty]
        exact put_canonicalFrom hm (Nat.zero_le lo) hfirst
      have hindex : lo + 1 + j = lo + (j + 1) := by omega
      rw [List.getElem?_cons_succ, ← ih hwf htail hrest (Nat.lt_of_succ_lt_succ hj), hindex]

end Pseudo

/-- Settles O59: all three lists of cycles are command-free and have `n`, `n` and no ticks; SET_ALL by
`dutyAt_after_setAll` from channel 0. -/
theorem pseudoOperationsOfTheStimulus : Obligations.PseudoOperationsOfTheStimulus := by
  refine ⟨fun s n div hdiv => ⟨?_, ?_⟩, fun s vs div hm hlen a ha => ?_⟩
  · exact (after_ticksReal_block s hdiv n).trans (after_replicate_block s n (i := CycleIn.tickOnly) rfl rfl).symm
  · exact after_replicate_block s n (i := CycleIn.idle) rfl rfl
  · have hcell := dutyAt_after_setAll (s := { s with inputs := setAllCycles 0 vs }) (lo := 0) (j := a) hm rfl
      (by rw [Nat.zero_add]; exact hlen.le) (hlen ▸ ha)
    rwa [Nat.zero_add, hlen] at hcell

end Sys2Proof.Proofs

/-! ## The Channel Store commands (40_channel_store_ops.md)
First what a command with a valid operand keeps around the block, then what a valid SET_DUTY and the other parts of a cycle
do to the cells; the four statements are assembled from these. -/

namespace Sys2Proof.Proofs

open Machine Laws

variable {s t : State} {ch : BitVec 4} {val : Byte} {a : Nat}

/-! ### Stores that read alike -/

theorem eq_of_read_eq {c : Config} {m m' : Memory} (hm : Memory.wf c m = true) (hm' : Memory.wf c m' = true)
    (h : ∀ a, Memory.read c m a = Memory.read c m' a) : m = m' :=
  wf_ext hm hm' fun a ha => by simpa [read_eq, ha, Memory.unlisted] using h a

/-- To store the value that a cell holds is to store nothing, because the form is canonical. -/
theorem put_of_read_eq {c : Config} {m : Memory} (hm : Memory.wf c m = true) (ha : a < c.n)
    (h : Memory.read c m a = some val) : m.put c.dutyReset a val = m := by
  obtain ⟨-, hself, hother, hwf⟩ := write_spec hm (write_eq_some (v := val) ha)
  refine eq_of_read_eq hwf hm fun b => ?_
  by_cases hb : b = a
  · rw [hb, hself, h]
  · exact hother b hb

theorem dutyAt_congr (hcfg : t.cfg = s.cfg) (hduty : t.block.duty = s.block.duty) (a : Nat) :
    dutyAt t a = dutyAt s a := by
  rw [dutyAt, dutyAt, hcfg, hduty]

/-! ### The frame of a command -/

theorem wf_setDuty_iff {c : Config} : (Instr.setDuty ch val).wf c = true ↔ ch.toNat < c.n := decide_eq_true_iff

theorem wf_getDuty_iff {c : Config} : (Instr.getDuty ch).wf c = true ↔ ch.toNat < c.n := decide_eq_true_iff

/-- A command with a valid operand keeps what stands around the block, the fault record included. -/
theorem exec_keeps_surroundings {i : Instr} (hw : i.wf s.cfg = true) (h : exec i s = .next t) :
    t.cfg = s.cfg ∧ t.inputs = s.inputs ∧ t.violation = s.violation ∧ t.outs.sliceEvt = s.outs.sliceEvt := by
  cases i with
  | init =>
    rw [exec_init] at h
    cases h
    split <;> exact ⟨rfl, rfl, rfl, rfl⟩
  | setDuty ch v =>
    rw [exec_setDuty_valid (wf_setDuty_iff.1 hw)] at h
    cases h
    exact ⟨rfl, rfl, rfl, rfl⟩
  | getDuty ch =>
    rw [exec_getDuty_eq (wf_getDuty_iff.1 hw)] at h
    cases h
    exact ⟨rfl, rfl, rfl, rfl⟩

theorem init_block_frame (h : exec .init s = .next t) :
    { t.block with en := s.block.en, oe := s.block.oe } = s.block := by
  rw [exec_init] at h
  cases h
  split <;> rfl

theorem init_keeps_dutyAt (h : exec .init s = .next t) (a : Nat) : dutyAt t a = dutyAt s a := by
  obtain ⟨hcfg, -⟩ := exec_keeps_surroundings rfl h
  have hduty : t.block.duty = s.block.duty := (congrArg Block.duty (init_block_frame h) :)
  exact dutyAt_congr hcfg hduty a

theorem getDuty_keeps_block (hc : ch.toNat < s.cfg.n) (h : exec (.getDuty ch) s = .next t) : t.block = s.block := by
  rw [exec_getDuty_eq hc] at h
  cases h
  rfl

theorem setDuty_block (hc : ch.toNat < s.cfg.n) (h : exec (.setDuty ch val) s = .next t) :
    t.block = { s.block with duty := s.block.duty.put s.cfg.dutyReset (channelIndex ch) val } := by
  rw [exec_setDuty_valid hc] at h
  cases h
  rfl

/-! ### The cells after a valid `SET_DUTY` -/

theorem setDuty_keeps_cfg (hc : ch.toNat < s.cfg.n) (h : exec (.setDuty ch val) s = .next t) : t.cfg = s.cfg := by
  obtain ⟨hcfg, -⟩ := exec_keeps_surroundings (wf_setDuty_iff.2 hc) h
  exact hcfg

theorem dutyAt_setDuty_self (hm : Memory.wf s.cfg s.block.duty = true) (hc : ch.toNat < s.cfg.n)
    (h : exec (.setDuty ch val) s = .next t) : dutyAt t (channelIndex ch) = some val := by
  rw [dutyAt, setDuty_keeps_cfg hc h, setDuty_block hc h]
  exact read_put_self hm hc

theorem dutyAt_setDuty_other (hc : ch.toNat < s.cfg.n) (h : exec (.setDuty ch val) s = .next t)
    (ha : a ≠ channelIndex ch) : dutyAt t a = dutyAt s a := by
  rw [dutyAt, setDuty_keeps_cfg hc h, setDuty_block hc h]
  exact read_put_other ha

/-- The second of two stores to one channel leaves the state that it alone leaves (R60 (c)). -/
theorem exec_setDuty_after_setDuty (hm : Memory.wf s.cfg s.block.duty = true) (hc : ch.toNat < s.cfg.n)
    (h : exec (.setDuty ch val) s = .next t) (w : Byte) : exec (.setDuty ch w) t = exec (.setDuty ch w) s := by
  have hput : (s.block.duty.put s.cfg.dutyReset ch.toNat val).put s.cfg.dutyReset ch.toNat w =
      s.block.duty.put s.cfg.dutyReset ch.toNat w := put_put hm
  have htc : ch.toNat < t.cfg.n := by rwa [setDuty_keeps_cfg hc h]
  rw [exec_setDuty_valid htc, exec_setDuty_valid hc]
  rw [exec_setDuty_valid hc] at h
  cases h
  simp [quiet, hput]

/-! ### The cells after a cycle's other parts -/

theorem timerPart_keeps_dutyAt (tick : Bool) (s : State) (a : Nat) : dutyAt (timerPart tick s) a = dutyAt s a :=
  dutyAt_congr (t := timerPart tick s) (s := s) rfl (timerBlock_duty s.cfg s.block tick) a

theorem step_of_reset (hr : (currentInput s).rst = true) : step s = .next (resetCycle (dropInput s)) := by
  simp [step, cycle, hr]

theorem dutyAt_step_of_reset (hr : (currentInput s).rst = true) (h : step s = .next t) (ha : a < s.cfg.n) :
    dutyAt t a = some s.cfg.dutyReset := by
  rw [step_of_reset hr] at h
  cases h
  exact (dutyAt_of_empty rfl a).trans (if_pos ha)

/-! ### The statements -/

/-- Settles O10: the command is one put, and `write_spec` and `put_of_read_eq` say what a put does. -/
theorem setDutyStoresOneCell : Obligations.SetDutyStoresOneCell := by
  intro s ch val hm hc
  obtain ⟨-, hself, hother, hwf⟩ := write_spec hm (write_eq_some (v := val) hc)
  exact ⟨_, exec_setDuty_valid hc, hwf, hself, hother, put_of_read_eq hm hc⟩

/-- Settles O11: the response is the cell's byte, and after power-on every cell reads as DUTY_RESET. -/
theorem getDutyResponds : Obligations.GetDutyResponds := by
  refine ⟨fun s ch hc => exec_getDuty_valid hc, fun c ins ch hc => ?_⟩
  have hcell : dutyAt (powerOn c ins) (channelIndex ch) = some c.dutyReset := (dutyAt_of_empty rfl _).trans (if_pos hc)
  exact ⟨_, exec_getDuty_of_cell hcell, rfl, rfl⟩

/-- Settles O15: `exec_keeps_surroundings` for each command, and what it does to the block. -/
theorem frameOfEachCommand : Obligations.FrameOfEachCommand := by
  refine ⟨fun s t h => ?_, fun s t ch hc h => ?_, fun s t ch val hc h => ?_⟩
  · exact ⟨init_keeps_dutyAt h, init_block_frame h, exec_keeps_surroundings rfl h⟩
  · have hblock := getDuty_keeps_block hc h
    obtain ⟨hcfg, hrest⟩ := exec_keeps_surroundings (wf_getDuty_iff.2 hc) h
    exact ⟨dutyAt_congr hcfg (congrArg Block.duty hblock), hblock, hcfg, hrest⟩
  · refine ⟨fun a ha => dutyAt_setDuty_other hc h ha, ?_, exec_keeps_surroundings (wf_setDuty_iff.2 hc) h⟩
    rw [setDuty_block hc h]

/-- Settles O13: (a), (b) and (c) are the reads and the second store after a valid `SET_DUTY`; INIT, TICK and SERVICE
leave the store alone, and RESET empties its list. -/
theorem channelStoreLaws : Obligations.ChannelStoreLaws := by
  refine ⟨fun s ch v w hm hc => ?_, fun s t a h => init_keeps_dutyAt h a, timerPart_keeps_dutyAt, service_duty,
    fun s t a hr h ha => dutyAt_step_of_reset hr h ha⟩
  have hset := exec_setDuty_valid (s := s) (v := v) hc
  refine ⟨_, hset, ?_, fun j hj hjc => ?_, exec_setDuty_after_setDuty hm hc hset w⟩
  · exact ⟨_, exec_getDuty_of_cell (dutyAt_setDuty_self hm hc hset), rfl, rfl⟩
  · obtain ⟨x, hx, hget⟩ := exec_getDuty_valid (s := s) hjc
    have hne : channelIndex j ≠ channelIndex ch := fun he => hj (BitVec.eq_of_toNat_eq he)
    have hcell := (dutyAt_setDuty_other hc hset hne).trans hx
    exact ⟨_, _, exec_getDuty_of_cell hcell, hget, rfl⟩

end Sys2Proof.Proofs

/-! ## INIT (41_engine_init.md)
INIT in its two cases, supported and unsupported hardware; its whole effect and its idempotence are read off these. The ports
clause of the invariant says that without supported hardware the block is OFF in every run, so no TICK and no SERVICE
happens. -/

namespace Sys2Proof.Proofs

open Machine Laws

variable {s : State}

/-! ### The two cases of INIT -/

/-- With supported hardware INIT arms the engine and drives the lines 0..N-1 (R61). -/
theorem exec_init_supported (h : s.cfg.hwSupported = true) :
    exec .init s = .next (quiet { s with block := { s.block with en := true, oe := driveMask s.cfg } }) := by
  rw [exec_init, if_pos h]

/-- With unsupported hardware INIT is accepted and writes nothing (R63). -/
theorem exec_init_unsupported (h : s.cfg.hwSupported = false) : exec .init s = .next (quiet s) := by
  rw [exec_init, h]
  rfl

/-- Settles O7: `exec_init`, its choice moved from the whole state to the block. -/
theorem initEffect : Obligations.InitEffect := by
  intro s
  cases h : s.cfg.hwSupported with
  | true => exact exec_init_supported h
  | false => exact exec_init_unsupported h

/-! ### Idempotence (R62) -/

/-- To arm a block that is already armed and drives its lines writes nothing. -/
theorem arm_eq_self {b : Block} {mask : Byte} (hen : b.en = true) (hoe : b.oe = mask) :
    { b with en := true, oe := mask } = b := by
  rw [← hen, ← hoe]

/-- Settles O8: INIT keeps the parameters, so the second INIT is in the same case as the first, and writes the same two
constants again. -/
theorem initIsIdempotent : Obligations.InitIsIdempotent := by
  refine ⟨fun s => ?_, rfl⟩
  cases h : s.cfg.hwSupported with
  | true => exact ⟨_, exec_init_supported h, exec_init_supported h, rfl, rfl, rfl, rfl, arm_eq_self⟩
  | false => exact ⟨_, exec_init_unsupported h, exec_init_unsupported h, rfl, rfl, rfl, rfl, fun _ _ => rfl⟩

/-! ### Unsupported hardware (R63) -/

/-- Without supported hardware the invariant leaves the state OFF only. -/
theorem off_of_unsupported (hinv : Inv s) (h : s.cfg.hwSupported = false) :
    s.block.en = false ∧ s.block.cnt = 0x00 ∧ s.block.out = 0x00 ∧ s.block.oe = 0x00 := by
  rcases hinv.ports with ⟨hen, hoe, hout, hcnt, -, -⟩ | ⟨-, -, hhw⟩
  · exact ⟨hen, hcnt, hout, hoe⟩
  · rw [h] at hhw
    cases hhw

/-- In the state OFF no cycle performs a SERVICE (R65, R74). -/
theorem after_one_no_service_of_off (h : s.block.en = false) : (after 1 s).outs.sliceEvt = false := by
  cases hr : (currentInput s).rst with
  | true => simp [after_one_eq, stepResult, hr, CycleOut.idle]
  | false =>
    obtain ⟨-, -, -, -, hevt, -⟩ := after_one_engine hr
    rw [hevt, serviceNow, h]
    rfl

/-- Without supported hardware no run from power-on has a SERVICE: the state before each cycle is OFF. -/
theorem no_service_of_unsupported {c : Config} (h : c.hwSupported = false) (ins : List CycleIn) (k : Nat) :
    (after k (powerOn c ins)).outs.sliceEvt = false := by
  cases k with
  | zero => rfl
  | succ k =>
    have hhw : (after k (powerOn c ins)).cfg.hwSupported = false := by rwa [after_cfg]
    obtain ⟨hen, -⟩ := off_of_unsupported (inv_after_powerOn c ins k) hhw
    rw [after_succ']
    exact after_one_no_service_of_off hen

/-- Settles O9: the invariant's ports clause in every state of the run; INIT's second case; and the two store commands on a
canonical store. -/
theorem unsupportedHardwareStaysOff : Obligations.UnsupportedHardwareStaysOff := by
  intro c ins k h _
  have hinv := inv_after_powerOn c ins k
  have hevt := no_service_of_unsupported h ins k
  have hcfg : (after k (powerOn c ins)).cfg = c := after_cfg k (powerOn c ins)
  generalize after k (powerOn c ins) = s at hinv hevt hcfg ⊢
  subst hcfg
  obtain ⟨hen, hcnt, hout, hoe⟩ := off_of_unsupported hinv h
  refine ⟨hen, hcnt, hout, hoe, hevt, ⟨_, exec_init_unsupported h, rfl, rfl⟩, fun ch val hc => ?_, fun ch hc => ?_⟩
  · have hset := exec_setDuty_valid (s := s) (v := val) hc
    exact ⟨_, hset, dutyAt_setDuty_self hinv.store hc hset⟩
  · obtain ⟨v, hcell, hget⟩ := exec_getDuty_valid (s := s) hc
    exact ⟨_, hget, rfl, hcell⟩

end Sys2Proof.Proofs

/-! ## The timer and its FSM (42_timer_compare_isr_fsm.md)
First the timer part by its cases and a whole cycle as both parts on the old state; the statements about one cycle are read
off these. Then the run of a slice: from a counter at 0 the counter is the number of ticks, up to the SERVICE at the slice's
last tick. The slices after a SERVICE and the lead-in after the first INIT are the two ways in which such a run begins. The
model's step answers R104's next state to a command error, so none of the lemmas needs a premise about errors. -/

namespace Sys2Proof.Proofs

open Machine Laws

variable {s : State}

/-! ### The timer part by its cases -/

theorem compareMatch_iff_toNat {b : Block} : compareMatch b = true ↔ (b.cnt.toNat + 1) % 256 = b.cmp.toNat := by
  rw [compareMatch, decide_eq_true_eq, ← BitVec.toNat_inj]
  rfl

theorem serviceNow_iff {tick : Bool} {b : Block} :
    serviceNow tick b = true ↔ b.en = true ∧ tick = true ∧ compareMatch b = true := by
  simp [serviceNow, and_assoc]

theorem serviceNow_of_no_tick {tick : Bool} {b : Block} (h : b.en = false ∨ tick = false) : serviceNow tick b = false := by
  rcases h with h | h <;> simp [serviceNow, h]

/-- A tick while OFF, and a cycle without a tick, leave the block as it is (R66). -/
theorem timerBlock_of_no_tick (c : Config) {b : Block} {tick : Bool} (h : b.en = false ∨ tick = false) :
    timerBlock c b tick = b := by
  rcases h with h | h <;> simp [timerBlock, h]

/-- While ARMED every tick is a TICK (R65). -/
theorem timerBlock_of_armed (c : Config) {b : Block} {tick : Bool} (hen : b.en = true) (ht : tick = true) :
    timerBlock c b tick = tickBlock c b := by
  simp [timerBlock, hen, ht]

theorem tickBlock_of_match (c : Config) {b : Block} (h : compareMatch b = true) : tickBlock c b = service c b := by
  rw [tickBlock, if_pos h]

theorem tickBlock_of_no_match (c : Config) {b : Block} (h : ¬compareMatch b = true) :
    tickBlock c b = { b with cnt := nextCount b } := by
  rw [tickBlock, if_neg h]

/-! ### A whole cycle: both parts read the old state (R73) -/

theorem after_one_of_reset (hr : (currentInput s).rst = true) : after 1 s = resetCycle (dropInput s) := by
  have hstep := step_after_one s
  rw [step_of_reset hr] at hstep
  injection hstep with hafter
  exact hafter.symm

theorem after_one_of_no_reset (hr : (currentInput s).rst = false) :
    after 1 s = commandResult (currentInput s) (timerPart (nextTick s) (dropInput s)) := by
  have hstep := step_after_one s
  rw [step_of_no_reset hr, commandPart_eq] at hstep
  injection hstep with hafter
  exact hafter.symm

/-- What a command writes to DUTY, OE and EN depends on no other element of the block. -/
theorem commandResult_congr (i : CycleIn) {s t : State} (hcfg : t.cfg = s.cfg) (hduty : t.block.duty = s.block.duty)
    (hoe : t.block.oe = s.block.oe) (hen : t.block.en = s.block.en) :
    (commandResult i t).block.duty = (commandResult i s).block.duty ∧
      (commandResult i t).block.oe = (commandResult i s).block.oe ∧
      (commandResult i t).block.en = (commandResult i s).block.en := by
  unfold commandResult
  rw [hcfg]
  cases i.cmdValid with
  | false => exact ⟨hduty, hoe, hen⟩
  | true =>
    cases decodeChecked s.cfg.n i.cmd with
    | init =>
      cases s.cfg.hwSupported with
      | false => exact ⟨hduty, hoe, hen⟩
      | true => exact ⟨hduty, rfl, rfl⟩
    | setDuty ch val => exact ⟨by simp [hduty], hoe, hen⟩
    | getDuty ch => exact ⟨hduty, hoe, hen⟩
    | badChannel => exact ⟨hduty, hoe, hen⟩
    | badOpcode => exact ⟨hduty, hoe, hen⟩

theorem block_eq_of_engine {b b' : Block} (hplane : b'.plane = b.plane) (hcnt : b'.cnt = b.cnt) (hcmp : b'.cmp = b.cmp)
    (hout : b'.out = b.out) : b' = { b with duty := b'.duty, oe := b'.oe, en := b'.en } := by
  rw [← hplane, ← hcnt, ← hcmp, ← hout]

/-- The block after a cycle without reset: the engine's registers from the timer part of the old state, the other elements
from the command part of the old state. -/
theorem after_one_block (hr : (currentInput s).rst = false) :
    (after 1 s).block = { timerBlock s.cfg s.block (nextTick s) with
      duty := (commandResult (currentInput s) (dropInput s)).block.duty
      oe := (commandResult (currentInput s) (dropInput s)).block.oe
      en := (commandResult (currentInput s) (dropInput s)).block.en } := by
  obtain ⟨hplane, hcnt, hcmp, hout, -⟩ :=
    commandResult_engine (currentInput s) (timerPart (nextTick s) (dropInput s))
  obtain ⟨hduty, hoe, hen⟩ := commandResult_congr (currentInput s) (s := dropInput s)
    (t := timerPart (nextTick s) (dropInput s)) rfl (timerBlock_duty _ _ _) (timerBlock_oe _ _ _) (timerBlock_en _ _ _)
  rw [after_one_of_no_reset hr, ← hduty, ← hoe, ← hen]
  exact block_eq_of_engine hplane hcnt hcmp hout

/-- Settles O23: RESET, or `after_one_block`; and with no command the cycle is the timer part alone, which then does
nothing. -/
theorem cycleReadsTheOldState : Obligations.CycleReadsTheOldState := by
  refine fun s => ⟨_, step_after_one s, fun hr => ?_, fun hr => ?_, fun hr hv ht => ?_⟩
  · rw [after_one_of_reset hr]
    rfl
  · exact ⟨_, commandPart_eq _ _, after_one_block hr⟩
  · rw [after_one_block_of_no_command hr hv, timerBlock_of_no_tick s.cfg ht.symm]

/-! ### The presented command (R47) -/

theorem decode_of_decodeTableWord {nbits w : Nat} {i : Instr} (h : decodeTableWord nbits w = some i) :
    decode (BitVec.ofNat 16 (w % 2 ^ nbits)) = .instr i := by
  unfold decodeTableWord at h
  cases hd : decode (BitVec.ofNat 16 (w % 2 ^ nbits)) with
  | instr j => rw [hd] at h; cases h; rfl
  | badOpcode => rw [hd] at h; cases h

theorem step_of_instr {i : Instr} (hr : (currentInput s).rst = false) (hv : (currentInput s).cmdValid = true)
    (hd : decode (currentInput s).cmd = .instr i) : step s = exec i (timerPart (nextTick s) (dropInput s)) := by
  rw [step_of_no_reset hr, commandPart_of_instr hv hd]

theorem timerPart_of_no_tick (s : State) :
    timerPart false s = { s with outs := { s.outs with sliceEvt := false } } := by
  simp [timerPart, serviceNow]

/-- Settles O22: `step_of_instr`, and the same for the cycle that `withFetchWord` places, which has no tick. -/
theorem stepRunsDecodedInstruction : Obligations.StepRunsDecodedInstruction :=
  ⟨fun _ _ => step_of_instr,
    fun s w _ _ h => step_of_instr (s := s.withFetchWord 16 w) rfl rfl (decode_of_decodeTableWord h),
    timerPart_of_no_tick⟩

/-! ### The two states of the FSM (R65, R66) -/

/-- A command sets EN iff it is an INIT with supported hardware; none clears it (R23). -/
theorem commandResult_en (i : CycleIn) (s : State) :
    (commandResult i s).block.en = (s.block.en || (s.cfg.hwSupported && presentsInit i)) := by
  unfold commandResult presentsInit
  cases i.cmdValid with
  | false => simp
  | true =>
    rcases decodeChecked_cases s.cfg.n i.cmd with ⟨hd, h⟩ | ⟨ch, val, hd, ⟨-, h⟩ | ⟨-, h⟩⟩ | ⟨ch, hd, ⟨-, h⟩ | ⟨-, h⟩⟩ |
      ⟨hd, h⟩ <;> rw [hd, h]
    · cases hhw : s.cfg.hwSupported <;> simp
    all_goals simp

/-- EN after a cycle (R65). -/
theorem after_one_en (s : State) :
    (after 1 s).block.en =
      (!(currentInput s).rst && (s.block.en || (s.cfg.hwSupported && presentsInit (currentInput s)))) := by
  cases hr : (currentInput s).rst with
  | true => rw [after_one_of_reset hr]; rfl
  | false => rw [after_one_block hr]; exact commandResult_en _ _

theorem after_one_sliceEvt (hr : (currentInput s).rst = false) :
    (after 1 s).outs.sliceEvt = serviceNow (nextTick s) s.block := by
  obtain ⟨-, -, -, -, hevt, -⟩ := after_one_engine hr
  exact hevt

/-- Settles O28: `after_one_en`; OFF, the timer part does nothing; ARMED, a tick is `tickBlock`. -/
theorem fsmStatesAndTransitions : Obligations.FsmStatesAndTransitions := by
  refine fun s _ => ⟨_, step_after_one s, after_one_en s, fun hr hen => ?_, fun hr hen ht => ?_⟩
  · rw [after_one_block hr, after_one_sliceEvt hr, timerBlock_of_no_tick s.cfg (.inl hen)]
    exact ⟨rfl, serviceNow_of_no_tick (.inl hen)⟩
  · refine ⟨?_, ?_, ?_, ?_, by rw [after_one_en, hr, hen]; rfl⟩ <;>
      rw [after_one_block hr, timerBlock_of_armed s.cfg hen ht]

/-- While OFF a cycle's answer does not depend on its tick. -/
theorem stepResult_tick_of_off (c : Config) {b : Block} (hen : b.en = false) (i : CycleIn) (tick : Bool)
    (rest : List CycleIn) (v : Option CmdError) :
    stepResult c b { i with tick := tick } rest v = stepResult c b i rest v := by
  simp only [stepResult, timerBlock_of_no_tick c (.inl hen), serviceNow_of_no_tick (.inl hen)]
  rfl

/-- Settles O27: `stepResult_tick_of_off`, and the cycle leaves the engine's registers alone. -/
theorem ticksWhileOffAreLost : Obligations.TicksWhileOffAreLost := by
  intro s valid w rest hen _
  refine ⟨?_, _, step_after_one _, ?_⟩
  · rw [step_eq, step_eq]
    exact congrArg _ (stepResult_tick_of_off s.cfg hen ⟨false, false, valid, w⟩ true rest s.violation)
  · rw [after_one_block rfl, after_one_sliceEvt rfl, timerBlock_of_no_tick s.cfg (.inl hen)]
    exact ⟨serviceNow_of_no_tick (.inl hen), rfl, rfl, rfl, rfl⟩

/-! ### TICK and SERVICE (R67, R69, R74) -/

/-- Settles O29: `after_one_block` with the three cases of the timer part, and `after_one_block_of_no_command`. -/
theorem tickAndService : Obligations.TickAndService := by
  intro s _ hr
  refine ⟨_, step_after_one s, fun hen ht hm => ?_, fun hen ht hm => ?_, fun hno => ?_, fun hv => ?_⟩
  · rw [← compareMatch_iff_toNat] at hm
    rw [after_one_block hr, after_one_sliceEvt hr, timerBlock_of_armed s.cfg hen ht, tickBlock_of_match s.cfg hm]
    exact ⟨rfl, rfl, rfl, rfl, serviceNow_iff.2 ⟨hen, ht, hm⟩⟩
  · rw [Ne, ← compareMatch_iff_toNat] at hm
    rw [after_one_block hr, after_one_sliceEvt hr, timerBlock_of_armed s.cfg hen ht, tickBlock_of_no_match s.cfg hm]
    exact ⟨rfl, rfl, rfl, rfl, by simp [serviceNow, hm]⟩
  · rw [after_one_block hr, after_one_sliceEvt hr, timerBlock_of_no_tick s.cfg hno]
    exact ⟨rfl, rfl, rfl, rfl, serviceNow_of_no_tick hno⟩
  · rw [after_one_block_of_no_command hr hv]
    exact ⟨timerBlock_duty _ _ _, timerBlock_oe _ _ _, timerBlock_en _ _ _⟩

/-- Settles O30: `slice_evt` is a function of the cycle, 0 in a reset cycle; and the closed form of a step does not mention
the outputs before it. -/
theorem sliceEventMarksService : Obligations.SliceEventMarksService := by
  refine fun s => ⟨fun _ => ⟨_, step_after_one s, ?_, after_one_out_of_sliceEvt⟩, fun o => by rw [step_eq, step_eq]; rfl⟩
  cases hr : (currentInput s).rst with
  | true => simp [after_one_of_reset hr, CycleOut.idle]
  | false => simp [after_one_sliceEvt hr, serviceNow_iff, compareMatch_iff_toNat]

/-! ### The run of a slice (R71) -/

/-- The block `b` is ARMED, `n` ticks into a slice that began in the block `b₀`. -/
structure InSlice (b₀ : Block) (n : Nat) (b : Block) : Prop where
  en : b.en = true
  cnt : b.cnt.toNat = n
  cmp : b.cmp = b₀.cmp
  plane : b.plane = b₀.plane
  out : b.out = b₀.out

theorem sliceTicks_le (p : Byte) : sliceTicks p ≤ 256 := by
  have hlt := p.isLt
  unfold sliceTicks
  split <;> omega

theorem currentInput_rst_after (h : NoReset s.inputs) (k : Nat) : (currentInput (after k s)).rst = false :=
  currentInput_rst (by rw [after_inputs]; exact noReset_drop h k)

section Slice
variable {b₀ b : Block} {n : Nat}

/-- The SERVICE that ends the slice is at its last tick. -/
theorem serviceNow_iff_of_inSlice (h : InSlice b₀ n b) (tick : Bool) :
    serviceNow tick b = true ↔ tick = true ∧ n + 1 = sliceTicks b₀.cmp := by
  rw [serviceNow_iff, compareMatch_iff, h.cnt, h.cmp]
  simp [h.en]

/-- Before the slice's last tick the timer part counts the tick and does no more. -/
theorem inSlice_timerBlock (h : InSlice b₀ n b) (c : Config) {tick : Bool}
    (hlt : n + (if tick then 1 else 0) < sliceTicks b₀.cmp) :
    InSlice b₀ (n + (if tick then 1 else 0)) (timerBlock c b tick) := by
  rcases timerBlock_cases c b tick with ⟨hnow, -⟩ | ⟨-, -, rfl, -, hb⟩ | ⟨-, hno, hb⟩
  · obtain ⟨rfl, hlast⟩ := (serviceNow_iff_of_inSlice h tick).1 hnow
    exact absurd hlast (Nat.ne_of_lt hlt)
  · have hcnt : (nextCount b).toNat = n + 1 := by
      rw [nextCount, BitVec.toNat_add, h.cnt]
      exact Nat.mod_eq_of_lt (Nat.lt_of_lt_of_le hlt (sliceTicks_le b₀.cmp))
    rw [hb]
    exact ⟨h.en, hcnt, h.cmp, h.plane, h.out⟩
  · obtain rfl : tick = false := hno.resolve_left (by simp [h.en])
    rwa [hb]

/-- What makes a block one of a slice is EN and the engine's registers; no command clears the one or writes the others. -/
theorem inSlice_after_one (hr : (currentInput s).rst = false)
    (h : InSlice b₀ n (timerBlock s.cfg s.block (nextTick s))) : InSlice b₀ n (after 1 s).block := by
  have hen : (after 1 s).block.en = true := by
    rw [after_one_en, hr, ← timerBlock_en s.cfg s.block (nextTick s), h.en]
    rfl
  rw [after_one_block hr] at hen ⊢
  exact ⟨hen, h.cnt, h.cmp, h.plane, h.out⟩

/-- While fewer than L(CMP) ticks have passed since the slice began, the counter is their number. -/
theorem inSlice_after (hrst : NoReset s.inputs) (h0 : InSlice b₀ 0 s.block) {k : Nat}
    (hlt : ticksIn (s.inputs.take k) < sliceTicks b₀.cmp) :
    InSlice b₀ (ticksIn (s.inputs.take k)) (after k s).block := by
  induction k with
  | zero => exact h0
  | succ k ih =>
    rw [ticksIn_take_succ] at hlt ⊢
    have hslice := ih (Nat.lt_of_le_of_lt (Nat.le_add_right _ _) hlt)
    rw [after_succ']
    exact inSlice_after_one (currentInput_rst_after hrst k) (inSlice_timerBlock hslice _ hlt)

/-- The next SERVICE is at the slice's L(CMP)-th tick and not before. -/
theorem sliceEvt_after_iff (hrst : NoReset s.inputs) (h0 : InSlice b₀ 0 s.block) {k : Nat}
    (hlt : ticksIn (s.inputs.take k) < sliceTicks b₀.cmp) :
    (after (k + 1) s).outs.sliceEvt = true ↔
      nextTick (after k s) = true ∧ ticksIn (s.inputs.take k) + 1 = sliceTicks b₀.cmp := by
  rw [after_succ', after_one_sliceEvt (currentInput_rst_after hrst k)]
  exact serviceNow_iff_of_inSlice (inSlice_after hrst h0 hlt) _

end Slice

/-! ### The slice after a SERVICE (R71) -/

/-- A SERVICE opens a slice with the mask it read as the compare value and its word on the lines. -/
theorem inSlice_after_service (hr : (currentInput s).rst = false) (hnow : serviceNow (nextTick s) s.block = true) :
    InSlice (service s.cfg s.block) 0 (after 1 s).block := by
  obtain ⟨hen, ht, hm⟩ := serviceNow_iff.1 hnow
  refine inSlice_after_one hr ?_
  rw [timerBlock_of_armed s.cfg hen ht, tickBlock_of_match s.cfg hm]
  exact ⟨hen, rfl, rfl, rfl, rfl⟩

theorem sliceTicks_weight : ∀ k, k < 8 → sliceTicks (weight k) = 2 ^ k := by decide

/-- Settles O50: the run of the slice that `inSlice_after_service` opens. -/
theorem sliceLastsItsWeight : Obligations.SliceLastsItsWeight := by
  refine ⟨fun s hrst hnow k _ hlt => ?_, sliceTicks_weight⟩
  have h0 := inSlice_after_service (currentInput_rst hrst) hnow
  have hin : (after 1 s).inputs = s.inputs.tail := by rw [after_inputs, List.drop_one]
  have hrst1 : NoReset (after 1 s).inputs := by rw [after_inputs]; exact noReset_drop hrst 1
  rw [← hin] at hlt ⊢
  obtain ⟨-, hcnt, hcmp, -, hout⟩ := inSlice_after hrst1 h0 hlt
  rw [after_succ (k + 1), after_succ k]
  exact ⟨hcnt, hcmp, hout, sliceEvt_after_iff hrst1 h0 hlt⟩

/-! ### The lead-in after the first INIT (R77) -/

/-- Without an INIT the block stays OFF. -/
theorem off_after_of_no_init (h : s.block.en = false) (k : Nat) (hno : ∀ i ∈ s.inputs.take k, presentsInit i = false) :
    (after k s).block.en = false := by
  induction k generalizing s with
  | zero => exact h
  | succ k ih =>
    have hfirst : presentsInit (currentInput s) = false :=
      currentInput_of_take (P := fun i => presentsInit i = false) rfl hno
    rw [after_succ]
    refine ih (by simp [after_one_en, h, hfirst]) fun i hi => ?_
    rw [after_inputs, List.take_drop] at hi
    exact hno i (by simpa [Nat.add_comm] using List.mem_of_mem_drop hi)

/-- The first INIT with supported hardware opens a slice from the reset values; a tick beside it does not count. -/
theorem inSlice_after_first_init (hinv : Inv s) (hen : s.block.en = false) (hhw : s.cfg.hwSupported = true)
    (hr : (currentInput s).rst = false) (hi : presentsInit (currentInput s) = true) :
    InSlice (resetBlock s.cfg) 0 (after 1 s).block := by
  have hen1 : (after 1 s).block.en = true := by simp [after_one_en, hr, hhw, hi]
  rcases hinv.ports with ⟨-, -, hout, hcnt, hplane, hcmp⟩ | ⟨hon, -⟩
  · rw [after_one_block hr, timerBlock_of_no_tick s.cfg (.inl hen)] at hen1 ⊢
    exact ⟨hen1, by simp [hcnt], hcmp, hplane, hout⟩
  · rw [hen] at hon
    cases hon

/-- The state after power-on, cycles without INIT and a first INIT: the lead-in begins. -/
theorem inSlice_after_first_init_of_powerOn {c : Config} {pre post : List CycleIn} {i : CycleIn}
    (hhw : c.hwSupported = true) (hrst : NoReset (pre ++ i :: post)) (hpre : ∀ j ∈ pre, presentsInit j = false)
    (hi : presentsInit i = true) :
    InSlice (resetBlock c) 0 (after (pre.length + 1) (powerOn c (pre ++ i :: post))).block := by
  have hinv := inv_after_powerOn c (pre ++ i :: post) pre.length
  have hoff := off_after_of_no_init (s := powerOn c (pre ++ i :: post)) rfl pre.length (by simpa [powerOn] using hpre)
  have hcfg : (after pre.length (powerOn c (pre ++ i :: post))).cfg = c := after_cfg _ _
  have hcur : currentInput (after pre.length (powerOn c (pre ++ i :: post))) = i := by simp [currentInput, powerOn]
  rw [after_succ']
  generalize after pre.length (powerOn c (pre ++ i :: post)) = u at hinv hoff hcfg hcur ⊢
  subst hcfg hcur
  exact inSlice_after_first_init hinv hoff hhw (hrst _ (by simp)) hi

/-- While ARMED the lines 0..N-1 are driven (R22). -/
theorem oe_of_armed (hinv : Inv s) (hen : s.block.en = true) : s.block.oe = driveMask s.cfg := by
  rcases hinv.ports with ⟨hoff, -⟩ | ⟨-, hoe, -⟩
  · rw [hen] at hoff
    cases hoff
  · exact hoe

/-- Settles O51: the run of the slice that the first INIT opens; OE is the invariant's. -/
theorem leadInAfterTheFirstInit : Obligations.LeadInAfterTheFirstInit := by
  intro c pre i post k hhw hrst hpre hi _ hlt
  have h0 := inSlice_after_first_init_of_powerOn hhw hrst hpre hi
  have hinv := inv_after_powerOn c (pre ++ i :: post) (pre.length + 1 + k)
  have hin : (after (pre.length + 1) (powerOn c (pre ++ i :: post))).inputs = post := by simp [powerOn]
  have hcfg : (after (pre.length + 1 + k) (powerOn c (pre ++ i :: post))).cfg = c := after_cfg _ _
  rw [Nat.add_assoc _ k 1, after_add _ (k + 1)]
  rw [after_add] at hinv hcfg ⊢
  generalize after (pre.length + 1) (powerOn c (pre ++ i :: post)) = t at h0 hin hinv hcfg ⊢
  subst hin
  have hrst1 : NoReset t.inputs := fun j hj => hrst j (by simp [hj])
  obtain ⟨hen, hcnt, -, hplane, hout⟩ := inSlice_after hrst1 h0 hlt
  have hoe := oe_of_armed hinv hen
  rw [hcfg] at hoe
  exact ⟨hcnt, hplane, hout, hoe, sliceEvt_after_iff hrst1 h0 hlt⟩

end Sys2Proof.Proofs

/-! ## The output word and the output port (43_duty_output_mux.md)
First the bits of masked values and of one-hot masks, and one channel's evaluated bit; then the word bit by bit, for both
modes; the statements about the word, the spare bits and the lanes are read off these. Last the port: what a cycle writes to
OUT, and which lines are driven. -/

namespace Sys2Proof.Proofs

open Machine Laws

/-! ### Masked values and one channel's bit (R79, R84) -/

section Masks
variable {d p : Byte} {k : Nat}

/-- A masked value is nonzero where value and mask have a common bit. -/
theorem and_ne_zero_iff : d &&& p ≠ 0 ↔ ∃ k, k < 8 ∧ d.getLsbD k = true ∧ p.getLsbD k = true := by
  constructor
  · intro h
    by_contra hno
    refine h (BitVec.eq_of_getLsbD_eq fun k hk => ?_)
    rw [BitVec.getLsbD_and, Bool.eq_false_iff.2 fun hboth => hno ⟨k, hk, Bool.and_eq_true_iff.1 hboth⟩]
    exact BitVec.getLsbD_zero.symm
  · rintro ⟨k, -, hd, hp⟩ h
    have hbit : (d &&& p).getLsbD k = true := by rw [BitVec.getLsbD_and, hd, hp, Bool.and_self]
    rw [h] at hbit
    exact Bool.false_ne_true (BitVec.getLsbD_zero.symm.trans hbit)

theorem weight_getLsbD (hk : k < 8) (j : Nat) : (weight k).getLsbD j = decide (k = j) := by
  have hpow : weight k = BitVec.twoPow 8 k := BitVec.eq_of_toNat_eq (BitVec.toNat_twoPow 8 k).symm
  rw [hpow, BitVec.getLsbD_twoPow, decide_eq_true hk, Bool.true_and]

/-- Under a one-hot mask the value's own bit decides. -/
theorem and_weight_ne_zero_iff (hk : k < 8) : d &&& weight k ≠ 0 ↔ d.getLsbD k = true := by
  rw [and_ne_zero_iff]
  constructor
  · rintro ⟨j, -, hd, hj⟩
    rw [weight_getLsbD hk] at hj
    rwa [of_decide_eq_true hj]
  · intro hd
    exact ⟨k, hk, hd, by rw [weight_getLsbD hk, decide_eq_true rfl]⟩

theorem laneBit_eq_zero_or_one (d p : Byte) : laneBit d p = 0 ∨ laneBit d p = 1 := by
  unfold laneBit
  split
  · exact .inr rfl
  · exact .inl rfl

theorem laneBit_eq_one_iff : laneBit d p = 1 ↔ d &&& p ≠ 0 := by
  unfold laneBit
  split
  · exact iff_of_true rfl ‹_›
  · exact iff_of_false (by decide) ‹_›

theorem laneBit_zero_mask (d : Byte) : laneBit d 0 = 0 := if_neg (not_not_intro BitVec.and_zero)

theorem laneBit_getLsbD_zero (d p : Byte) : (laneBit d p).getLsbD 0 = decide (d &&& p ≠ 0) := by
  unfold laneBit
  split
  · rw [decide_eq_true ‹_›]; rfl
  · rw [decide_eq_false ‹_›]; rfl

end Masks

/-- Settles O37: the normalised bit says whether value and mask have a common bit. -/
theorem channelEvaluation : Obligations.ChannelEvaluation := fun d p =>
  ⟨laneBit_eq_zero_or_one d p, laneBit_eq_one_iff.trans and_ne_zero_iff,
    fun _ hk => laneBit_eq_one_iff.trans (and_weight_ne_zero_iff hk), laneBit_zero_mask d⟩

/-! ### The lanes, bit by bit -/

section Lanes
variable (p : Byte) {D : List Byte} {d : Byte} {i j : Nat}

/-- No lane lies below the first one. -/
theorem lanes_getLsbD_below (h : j < i) : (lanes p i D).getLsbD j = false := by
  induction D generalizing i with
  | nil => exact BitVec.getLsbD_zero
  | cons d D ih =>
    have hD : (lanes p (i + 1) D).getLsbD j = false := ih (by omega)
    simp [lanes, hD, h]

/-- Bit `i + j` is the evaluated bit of the `j`-th cell: the lanes above it do not reach down to it. -/
theorem lanes_getLsbD_of_cell (h : i + j < 8) (hd : D[j]? = some d) :
    (lanes p i D).getLsbD (i + j) = decide (d &&& p ≠ 0) := by
  induction D generalizing i j with
  | nil => cases hd
  | cons e D ih =>
    rw [lanes, BitVec.getLsbD_or, BitVec.getLsbD_shiftLeft]
    cases j with
    | zero =>
      obtain rfl : e = d := Option.some.inj hd
      have habove : (lanes p (i + 1) D).getLsbD i = false := lanes_getLsbD_below p (Nat.lt_succ_self i)
      rw [Nat.add_zero, habove, Nat.sub_self, laneBit_getLsbD_zero]
      simp [show i < 8 from h]
    | succ j =>
      have hlow : (laneBit e p).getLsbD (j + 1) = false := laneBit_getLsbD_of_pos e p (Nat.succ_pos j)
      have hrest := ih (i := i + 1) (j := j) (by omega) hd
      rw [show i + 1 + j = i + (j + 1) by omega] at hrest
      simp [hlow, hrest]

end Lanes

/-! ### The word in normalised mode (R80, R82, R83) -/

section Normalised
variable {D : List Byte} {d : Byte} {i : Nat}

theorem outw_normalised_of_channel (p : Byte) (hi : i < 8) (hd : D[i]? = some d) :
    (outw false D p).getLsbD i = decide (d &&& p ≠ 0) := by
  have hcell := lanes_getLsbD_of_cell p (i := 0) (j := i) (by omega) hd
  rwa [Nat.zero_add] at hcell

theorem outw_normalised_of_no_channel (p : Byte) (h : D.length ≤ i) : (outw false D p).getLsbD i = false :=
  lanes_getLsbD_beyond p (by omega)

end Normalised

/-- Settles O38: bit i lies either in a lane or beyond the channels. -/
theorem normalisedOutputWord : Obligations.NormalisedOutputWord := by
  intro D p i hi
  cases hd : D[i]? with
  | some d => exact outw_normalised_of_channel p hi hd
  | none => exact outw_normalised_of_no_channel p (List.getElem?_eq_none_iff.1 hd)

/-- Bit i of the word is the same for arrays that agree at channel i (R83). -/
theorem outw_normalised_congr {D E : List Byte} (p : Byte) {i : Nat} (h : D[i]? = E[i]?) :
    (outw false D p).getLsbD i = (outw false E p).getLsbD i := by
  rcases Nat.lt_or_ge i 8 with hi | hi
  · rw [normalisedOutputWord D p i hi, normalisedOutputWord E p i hi, h]
  · rw [BitVec.getLsbD_of_ge _ _ hi, BitVec.getLsbD_of_ge _ _ hi]

/-! ### The word in legacy mode (R81, R82) -/

section Legacy
variable {d0 d : Byte} {ds : List Byte} {k j : Nat}

/-- Under the mask 2^k channel 0 reaches bit k alone; the other bits are the lanes'. -/
theorem outw_legacy_getLsbD (hk : k < 8) (j : Nat) : (outw true (d0 :: ds) (weight k)).getLsbD j =
    (decide (k = j) && d0.getLsbD j || (lanes (weight k) 1 ds).getLsbD j) := by
  rw [outw, BitVec.getLsbD_or, BitVec.getLsbD_and, weight_getLsbD hk, Bool.and_comm]

/-- Line 0 carries no lane: channel 0's value is OR-ed in raw, and the lanes start at bit 1. -/
theorem outw_legacy_line_zero (hk : k < 8) :
    (outw true (d0 :: ds) (weight k)).getLsbD 0 = (decide (k = 0) && d0.getLsbD 0) := by
  rw [outw_legacy_getLsbD hk, lanes_getLsbD_below (weight k) Nat.zero_lt_one, Bool.or_false]

/-- A channel's line other than line 0: its own bit, and channel 0's on the mask's own line. -/
theorem outw_legacy_of_channel (hk : k < 8) (hj : 1 ≤ j) (hj8 : j < 8) (hd : (d0 :: ds)[j]? = some d) :
    (outw true (d0 :: ds) (weight k)).getLsbD j = (decide (k = j) && d0.getLsbD j || d.getLsbD k) := by
  obtain ⟨l, rfl⟩ := Nat.exists_eq_add_of_le hj
  rw [Nat.add_comm, List.getElem?_cons_succ] at hd
  have hlane := lanes_getLsbD_of_cell (weight k) hj8 hd
  simp only [and_weight_ne_zero_iff hk, Bool.decide_eq_true] at hlane
  rw [outw_legacy_getLsbD hk, hlane]

/-- Beyond the channels channel 0's bit stands alone. -/
theorem outw_legacy_of_no_channel (hk : k < 8) (h : ds.length + 1 ≤ j) :
    (outw true (d0 :: ds) (weight k)).getLsbD j = (decide (k = j) && d0.getLsbD j) := by
  rw [outw_legacy_getLsbD hk, lanes_getLsbD_beyond (weight k) (by omega), Bool.or_false]

end Legacy

/-- Settles O39: line 0, a channel's line and a line beyond the channels, each on the mask's line or off it. -/
theorem legacyOutputWord : Obligations.LegacyOutputWord := by
  intro d0 ds k hk hlen
  refine ⟨outw_legacy_line_zero hk, fun h1 _ d hd => ?_, fun _ hbeyond => ?_, fun j d h1 hne hd => ?_⟩
  · rw [outw_legacy_of_channel hk h1 hk hd, decide_eq_true rfl, Bool.true_and]
  · rw [outw_legacy_of_no_channel hk hbeyond, decide_eq_true rfl, Bool.true_and]
  · obtain ⟨hj, -⟩ := List.getElem?_eq_some_iff.1 hd
    rw [List.length_cons] at hj
    rw [outw_legacy_of_channel hk h1 (by omega) hd, decide_eq_false hne.symm, Bool.false_and, Bool.false_or]

/-- Settles O41: in normalised mode the changed cell is not the one that bit i reads; in legacy mode all values 0 and
channel 0 changed to 2^k differ in bit k. -/
theorem lanesAreIndependent : Obligations.LanesAreIndependent := by
  refine ⟨fun D p v i j hne => outw_normalised_congr p (List.getElem?_set_ne hne), fun n k h1 hkn hn => ?_⟩
  refine ⟨List.replicate n 0, weight k, List.length_replicate, ?_⟩
  obtain ⟨m, rfl⟩ := Nat.exists_eq_add_of_lt (Nat.zero_lt_of_lt hkn)
  have hk : k < 8 := by omega
  have hcell (v : Byte) : (v :: List.replicate m 0)[k]? = some (0 : Byte) := by
    obtain ⟨l, rfl⟩ := Nat.exists_eq_add_of_le' h1
    rw [List.getElem?_cons_succ, List.getElem?_replicate_of_lt (by omega)]
  rw [Nat.zero_add, List.replicate_succ, List.set_cons_zero, outw_legacy_of_channel hk h1 hk (hcell _),
    outw_legacy_of_channel hk h1 hk (hcell _), weight_getLsbD hk]
  simp

/-! ### The port (R22, R82, R85) -/

theorem lineLevel_of_driven {b : Block} {i : Nat} (h : b.oe.getLsbD i = true) :
    lineLevel b i = some (b.out.getLsbD i) := if_pos h

theorem lineLevel_eq_none_iff {b : Block} {i : Nat} : lineLevel b i = none ↔ b.oe.getLsbD i = false := by
  cases h : b.oe.getLsbD i <;> simp [lineLevel, h]

/-- The bits N..7 of the drive mask are 0 (R22). -/
theorem driveMask_getLsbD_beyond {c : Config} {k : Nat} (h : c.n ≤ k) : (driveMask c).getLsbD k = false := by
  rw [driveMask, BitVec.getLsbD_ofNat, Nat.testBit_two_pow_sub_one, decide_eq_false (Nat.not_lt.2 h), Bool.and_false]

/-- Settles O40: beyond the channels no lane reaches, and INIT drives the lines of the channels only. -/
theorem spareOutputBits : Obligations.SpareOutputBits := by
  refine ⟨fun _ p _ h => outw_normalised_of_no_channel p h, fun _ _ _ _ hm h _ => outw_legacy_of_no_channel hm h,
    fun s hhw => ⟨_, exec_init_supported hhw, fun k hk => ?_⟩⟩
  have hoe := driveMask_getLsbD_beyond hk
  exact ⟨hoe, lineLevel_eq_none_iff.2 hoe⟩

/-- Settles O32: the SERVICE's word, the timer part without a SERVICE, and RESET; a line's level is its OUT bit. -/
theorem outIsWrittenOnlyByService : Obligations.OutIsWrittenOnlyByService := by
  refine fun s _ => ⟨_, step_after_one s, after_one_out_of_sliceEvt, fun hr hevt => ?_, fun hr => ?_,
    fun b => ⟨rfl, fun i => ⟨lineLevel_eq_none_iff, lineLevel_of_driven⟩⟩⟩
  · rw [after_one_sliceEvt hr] at hevt
    rw [after_one_block hr, timerBlock_out, hevt]
    rfl
  · rw [after_one_of_reset hr]
    rfl

end Sys2Proof.Proofs

/-! ## The bit-plane mask (44_bit_plane_sequencer.md)
First the advance of one byte, as its shift and in closed form; then advances repeated, on the eight weights and from any
byte up to the shift that falls out; last what a SERVICE leaves in PLANE and CMP. -/

namespace Sys2Proof.Proofs

open Machine Laws

section Advance
variable {p : Byte}

/-! ### One advance (R86, R93) -/

theorem adv_of_shift_eq_zero (h : p <<< 1 = 0) : adv p = 0x01 := if_pos h

theorem adv_of_shift_ne_zero (h : p <<< 1 ≠ 0) : adv p = p <<< 1 := if_neg h

theorem adv_ne_zero (p : Byte) : adv p ≠ 0 := by
  by_cases h : p <<< 1 = 0
  · rw [adv_of_shift_eq_zero h]
    decide
  · rwa [adv_of_shift_ne_zero h]

theorem shift_one_toNat (p : Byte) : (p <<< 1).toNat = p.toNat * 2 % 256 := by
  rw [BitVec.toNat_shiftLeft, Nat.shiftLeft_eq]

theorem shift_one_eq_zero_iff : p <<< 1 = 0 ↔ p.toNat * 2 % 256 = 0 := by
  rw [← shift_one_toNat]
  exact BitVec.toNat_inj.symm

theorem adv_toNat (p : Byte) : (adv p).toNat = if p.toNat * 2 % 256 = 0 then 1 else p.toNat * 2 % 256 := by
  by_cases h : p <<< 1 = 0
  · rw [adv_of_shift_eq_zero h, if_pos (shift_one_eq_zero_iff.1 h)]
    rfl
  · rw [adv_of_shift_ne_zero h, if_neg (mt shift_one_eq_zero_iff.2 h), shift_one_toNat]

theorem low_bits_toNat (p : Byte) : (p &&& 0x7F).toNat = p.toNat % 128 := by
  rw [BitVec.toNat_and]
  exact Nat.and_two_pow_sub_one_eq_mod p.toNat 7

/-- The shift drops the top bit, so it doubles the lower seven. -/
theorem shift_one_eq_double_low_bits (p : Byte) : p <<< 1 = (p &&& 0x7F) * 2 := by
  apply BitVec.eq_of_toNat_eq
  rw [shift_one_toNat, BitVec.toNat_mul, low_bits_toNat]
  change p.toNat * 2 % 256 = p.toNat % 128 * 2 % 256
  omega

theorem shift_one_eq_zero_iff_low_bits : p <<< 1 = 0 ↔ p &&& 0x7F = 0 := by
  have hlow : p &&& 0x7F = 0 ↔ p.toNat % 128 = 0 := by
    rw [← low_bits_toNat]
    exact BitVec.toNat_inj.symm
  rw [shift_one_eq_zero_iff, hlow]
  omega

theorem adv_getLsbD_zero (h : adv p ≠ 0x01) : (adv p).getLsbD 0 = false := by
  rw [adv_of_shift_ne_zero (mt adv_of_shift_eq_zero h)]
  simp

/-- Settles O42: the advance is the shift, or 0x01 where the shift is zero; the shift doubles the lower seven bits. -/
theorem advanceOfTheMask : Obligations.AdvanceOfTheMask := by
  refine fun p => ⟨adv_toNat p, fun hlow => ?_, fun hlow => ?_, adv_ne_zero p, adv_getLsbD_zero⟩
  · exact adv_of_shift_eq_zero (shift_one_eq_zero_iff_low_bits.2 hlow)
  · rw [adv_of_shift_ne_zero (mt shift_one_eq_zero_iff_low_bits.1 hlow), shift_one_eq_double_low_bits]

/-! ### Advances on the one-hot masks (R87) -/

theorem adv_weight : ∀ k, k < 8 → adv (weight k) = weight ((k + 1) % 8) := by decide

theorem adv_iterate_weight {k : Nat} (hk : k < 8) (j : Nat) : adv^[j] (weight k) = weight ((k + j) % 8) := by
  induction j with
  | zero => rw [Nat.add_zero, Nat.mod_eq_of_lt hk]; rfl
  | succ j ih =>
    rw [Function.iterate_succ_apply', ih, adv_weight _ (Nat.mod_lt _ (by decide)), Nat.mod_add_mod, Nat.add_assoc]

theorem oneHot_iff_weight : oneHot p = true ↔ ∃ k, k < 8 ∧ p = weight k := by
  have hlist : [(0x01 : Byte), 0x02, 0x04, 0x08, 0x10, 0x20, 0x40, 0x80] = (List.range 8).map weight := by decide
  rw [oneHot, decide_eq_true_iff, hlist]
  simp [eq_comm]

/-- Settles O43: advances add to the exponent modulo 8. -/
theorem advanceIsPeriodicWithPeriodEight : Obligations.AdvanceIsPeriodicWithPeriodEight := by
  refine ⟨adv_weight, fun k hk => ?_, fun _ => oneHot_adv, fun _ => oneHot_iff_weight⟩
  rw [adv_iterate_weight hk 8, Nat.add_mod_right, Nat.mod_eq_of_lt hk]

/-! ### Advances from any byte (R90) -/

theorem adv_iterate_ne_zero (h : p ≠ 0) (j : Nat) : adv^[j] p ≠ 0 := by
  cases j with
  | zero => exact h
  | succ j =>
    rw [Function.iterate_succ_apply']
    exact adv_ne_zero _

theorem ne_zero_of_bit {m : Nat} (h : p.getLsbD m = true) : p ≠ 0 := by
  rintro rfl
  exact Bool.false_ne_true (BitVec.getLsbD_zero.symm.trans h)

/-- A set bit that is moved up and not out keeps the shift from zero. -/
theorem shift_ne_zero_of_bit {m k : Nat} (h : p.getLsbD m = true) (hk : m + k < 8) : p <<< k ≠ 0 := by
  apply ne_zero_of_bit (m := m + k)
  simp [hk, h]

/-- The shift is zero where only bits that it moves out are set. -/
theorem shift_eq_zero_of_low_bits_clear {m : Nat} (h : ∀ j, j < m → p.getLsbD j = false) : p <<< (8 - m) = 0 := by
  refine BitVec.eq_of_getLsbD_eq fun i hi => ?_
  by_cases hlt : i < 8 - m
  · simp [hlt]
  · have hclear : p.getLsbD (i - (8 - m)) = false := h _ (by omega)
    simp [hclear]

/-- As long as a set bit stays in the byte, advances are shifts. -/
theorem adv_iterate_eq_shift {m k : Nat} (h : p.getLsbD m = true) (hk : m + k < 8) : adv^[k] p = p <<< k := by
  induction k with
  | zero => exact (BitVec.shiftLeft_zero p).symm
  | succ k ih =>
    have hshift : p <<< k <<< 1 = p <<< (k + 1) := (BitVec.shiftLeft_add p k 1).symm
    have hne : p <<< k <<< 1 ≠ 0 := by
      rw [hshift]
      exact shift_ne_zero_of_bit h hk
    rw [Function.iterate_succ_apply', ih (by omega), adv_of_shift_ne_zero hne, hshift]

/-- The lowest set bit is the last to be moved out, and the advance that does it gives 0x01. -/
theorem adv_iterate_lowest_bit {m : Nat} (hm : m < 8) (h : p.getLsbD m = true)
    (hlow : ∀ j, j < m → p.getLsbD j = false) : adv^[8 - m] p = 0x01 := by
  obtain ⟨k, hk⟩ : ∃ k, 8 - m = k + 1 := ⟨7 - m, by omega⟩
  have hout : p <<< k <<< 1 = 0 := by
    rw [← BitVec.shiftLeft_add, ← hk]
    exact shift_eq_zero_of_low_bits_clear hlow
  rw [hk, Function.iterate_succ_apply', adv_iterate_eq_shift h (by omega), adv_of_shift_eq_zero hout]

theorem exists_lowest_bit (h : p ≠ 0) :
    ∃ m, m < 8 ∧ p.getLsbD m = true ∧ ∀ j, j < m → p.getLsbD j = false := by
  have hbit : ∃ m, p.getLsbD m = true := by
    by_contra hno
    exact h (BitVec.eq_of_getLsbD_eq fun i _ =>
      (Bool.eq_false_iff.2 fun hi => hno ⟨i, hi⟩).trans BitVec.getLsbD_zero.symm)
  exact ⟨Nat.find hbit, BitVec.lt_of_getLsbD (Nat.find_spec hbit), Nat.find_spec hbit,
    fun j hj => Bool.eq_false_iff.2 (Nat.find_min hbit hj)⟩

theorem adv_iterate_reaches_oneHot (p : Byte) : ∃ k, k ≤ 8 ∧ oneHot (adv^[k] p) = true := by
  by_cases h : p = 0
  · exact ⟨1, by decide, by rw [h]; exact oneHot_adv_zero⟩
  · obtain ⟨m, hm, hbit, hlow⟩ := exists_lowest_bit h
    refine ⟨8 - m, Nat.sub_le 8 m, ?_⟩
    rw [adv_iterate_lowest_bit hm hbit hlow]
    rfl

/-- Settles O44: the lowest set bit tells how many advances give 0x01; a run's mask is by the mask clause of `Inv`. -/
theorem advanceReachesOneHot : Obligations.AdvanceReachesOneHot := by
  refine ⟨adv_iterate_reaches_oneHot, adv_of_shift_eq_zero rfl, fun p m hm hbit hlow => ?_, fun c ins k _ => ?_⟩
  · exact ⟨adv_iterate_lowest_bit hm hbit hlow, fun j _ => adv_iterate_ne_zero (ne_zero_of_bit hbit) j⟩
  · rcases (inv_after_powerOn c ins k).mask with h | ⟨-, h⟩
    · exact .inr h
    · exact .inl h

end Advance

/-! ### The mask and the compare register (R91) -/

section Compare
variable {s : State}

/-- A reset cycle shows no SERVICE (R121). -/
theorem no_reset_of_sliceEvt (h : (after 1 s).outs.sliceEvt = true) : (currentInput s).rst = false := by
  cases hr : (currentInput s).rst with
  | true =>
    rw [after_one_of_reset hr] at h
    cases h
  | false => rfl

theorem after_one_plane_cmp_of_sliceEvt (h : (after 1 s).outs.sliceEvt = true) :
    (after 1 s).block.cmp = s.block.plane ∧ (after 1 s).block.plane = adv s.block.plane := by
  rcases after_one_plane_cmp (no_reset_of_sliceEvt h) with ⟨-, hplane, hcmp⟩ | ⟨hevt, -⟩
  · exact ⟨hcmp, hplane⟩
  · rw [h] at hevt
    cases hevt

/-- Without reset, PLANE is the advance of CMP from the first SERVICE on: a SERVICE makes it so, another cycle keeps both. -/
theorem plane_follows_cmp_of_run (hr : NoReset s.inputs) (k : Nat) (h : 1 ≤ serviceCount k s) :
    (after k s).block.plane = adv (after k s).block.cmp := by
  induction k with
  | zero => exact absurd h (by simp [serviceCount])
  | succ k ih =>
    have hcycle := after_one_plane_cmp (currentInput_rst_after hr k)
    rw [← after_succ'] at hcycle
    rcases hcycle with ⟨-, hplane, hcmp⟩ | ⟨hevt, hplane, hcmp⟩ <;> rw [hplane, hcmp]
    rw [serviceCount_succ, hevt] at h
    exact ih h

/-- Settles O47: the two registers after one SERVICE, and `plane_follows_cmp_of_run`. -/
theorem maskIsTheAdvanceOfCompare : Obligations.MaskIsTheAdvanceOfCompare :=
  ⟨fun s _ => ⟨_, step_after_one s, after_one_plane_cmp_of_sliceEvt⟩, fun _ k hr _ h => plane_follows_cmp_of_run hr k h⟩

end Compare

end Sys2Proof.Proofs

/-! ## Modulation cycles (45_cycle_properties.md)
The schedule of the SERVICEs: a block on schedule after `j` SERVICEs and `n` ticks, kept by every cycle without reset. From it
follow the ticks of the SERVICEs, the eight SERVICEs of a full cycle, and, with the level that each SERVICE puts on a line, the
time that the line is high. Last, INITs put into a run. -/

namespace Sys2Proof.Proofs

open Machine Laws

variable {s : State}

/-! ### The ticks T(j) (R95) -/

theorem serviceTick_succ (j : Nat) : serviceTick (j + 1) = 255 * (j / 8) + 2 ^ (j % 8) := rfl

/-- The j-th slice lasts its weight (R94). -/
theorem serviceTick_add_weight {j : Nat} (hj : 1 ≤ j) : serviceTick (j + 1) = serviceTick j + 2 ^ ((j - 1) % 8) := by
  obtain ⟨i, rfl⟩ := Nat.exists_eq_add_of_le' hj
  rw [Nat.add_sub_cancel, serviceTick_succ, serviceTick_succ]
  by_cases hlast : i % 8 = 7
  · rw [show (i + 1) / 8 = i / 8 + 1 by omega, show (i + 1) % 8 = 0 by omega, hlast]
    omega
  · rw [show (i + 1) / 8 = i / 8 by omega, show (i + 1) % 8 = i % 8 + 1 by omega, Nat.pow_succ]
    omega

theorem serviceTick_strictMono : StrictMono fun j => serviceTick (j + 1) :=
  strictMono_nat_of_lt_succ fun j => by
    rw [serviceTick_add_weight (Nat.succ_pos j)]
    exact Nat.lt_add_of_pos_right (Nat.two_pow_pos _)

theorem serviceTick_lt_iff {i j : Nat} (hi : 1 ≤ i) (hj : 1 ≤ j) : serviceTick i < serviceTick j ↔ i < j := by
  obtain ⟨i, rfl⟩ := Nat.exists_eq_add_of_le' hi
  obtain ⟨j, rfl⟩ := Nat.exists_eq_add_of_le' hj
  exact serviceTick_strictMono.lt_iff_lt.trans (Nat.add_lt_add_iff_right (k := 1)).symm

theorem serviceTick_one : serviceTick 1 = 1 := rfl

theorem serviceTick_nine : serviceTick 9 = 256 := rfl

/-! ### The schedule -/

/-- The block `b` is ARMED, `j` SERVICEs and `n` ticks after a state in which the next tick opens a modulation cycle: its mask
is that of the next SERVICE, which is due at tick T(j+1), and its slice is that of the last SERVICE. -/
structure OnSchedule (j n : Nat) (b : Block) : Prop where
  en : b.en = true
  plane : b.plane = weight (j % 8)
  cmp : 1 ≤ j → b.cmp = weight ((j - 1) % 8)
  running : b.cnt.toNat < sliceTicks b.cmp
  due : n + (sliceTicks b.cmp - b.cnt.toNat) = serviceTick (j + 1)

section Schedule
variable {j n : Nat} {b : Block}

theorem opensCycle_iff_onSchedule : OpensCycle s ↔ OnSchedule 0 0 s.block := by
  unfold OpensCycle
  rw [compareMatch_iff]
  constructor
  · rintro ⟨hen, hplane, hlast⟩
    exact ⟨hen, hplane, nofun, by omega, by rw [serviceTick_one]; omega⟩
  · intro h
    have hdue : 0 + (sliceTicks s.block.cmp - s.block.cnt.toNat) = 1 := h.due
    have hrunning := h.running
    exact ⟨h.en, h.plane, by omega⟩

/-- The next SERVICE is not overdue. -/
theorem lt_serviceTick_of_onSchedule (h : OnSchedule j n b) : n < serviceTick (j + 1) := by
  have hdue := h.due
  have hrunning := h.running
  omega

/-- The counter holds the ticks since the last SERVICE. -/
theorem cnt_of_onSchedule (h : OnSchedule j n b) (hj : 1 ≤ j) : serviceTick j + b.cnt.toNat = n := by
  have hdue := h.due
  have hrunning := h.running
  rw [serviceTick_add_weight hj, h.cmp hj, sliceTicks_weight _ (Nat.mod_lt _ (by decide))] at hdue
  rw [h.cmp hj, sliceTicks_weight _ (Nat.mod_lt _ (by decide))] at hrunning
  omega

/-- Between T(i) and T(i+1) the last SERVICE was the i-th. -/
theorem eq_of_between_serviceTicks (h : OnSchedule j n b) {i : Nat} (hi : 1 ≤ i) (hle : serviceTick i ≤ n)
    (hlt : n < serviceTick (i + 1)) : i = j := by
  have hij : i < j + 1 :=
    (serviceTick_lt_iff hi (Nat.le_add_left 1 j)).1 (Nat.lt_of_le_of_lt hle (lt_serviceTick_of_onSchedule h))
  have hj : 1 ≤ j := by omega
  have hcnt := cnt_of_onSchedule h hj
  have hji : j < i + 1 := (serviceTick_lt_iff hj (Nat.le_add_left 1 i)).1 (by omega)
  omega

/-- The tick after `n` is no T(i) but the next SERVICE's. -/
theorem eq_succ_of_serviceTick (h : OnSchedule j n b) {i : Nat} (hi : 1 ≤ i) (hn : n + 1 = serviceTick i) : i = j + 1 := by
  have hnext := lt_serviceTick_of_onSchedule h
  have hij : ¬j + 1 < i := (serviceTick_lt_iff (Nat.le_add_left 1 j) hi).not.1 (by omega)
  rcases Nat.eq_zero_or_pos j with rfl | hj
  · omega
  · have hcnt := cnt_of_onSchedule h hj
    have hji : j < i := (serviceTick_lt_iff hj hi).1 (by omega)
    omega

/-! ### One cycle on schedule -/

theorem serviceNow_iff_of_onSchedule (h : OnSchedule j n b) (tick : Bool) :
    serviceNow tick b = true ↔ tick = true ∧ n + 1 = serviceTick (j + 1) := by
  have hdue := h.due
  have hrunning := h.running
  rw [serviceNow_iff, compareMatch_iff, ← hdue, h.en]
  simp only [true_and, and_congr_right_iff]
  omega

theorem onSchedule_service (h : OnSchedule j n b) (c : Config) (hn : n + 1 = serviceTick (j + 1)) :
    OnSchedule (j + 1) (n + 1) (service c b) := by
  have hmod : j % 8 < 8 := Nat.mod_lt j (by decide)
  have hcmp : sliceTicks (service c b).cmp = 2 ^ (j % 8) := by rw [service_cmp, h.plane, sliceTicks_weight _ hmod]
  refine ⟨h.en, ?_, fun _ => h.plane, ?_, ?_⟩
  · rw [service_plane, h.plane, adv_weight _ hmod, Nat.mod_add_mod]
  · rw [hcmp]
    exact Nat.two_pow_pos _
  · rw [hcmp, hn]
    exact (serviceTick_add_weight (Nat.succ_pos j)).symm

theorem onSchedule_count (h : OnSchedule j n b) (hn : n + 1 < serviceTick (j + 1)) :
    OnSchedule j (n + 1) { b with cnt := nextCount b } := by
  have hdue := h.due
  have hle := sliceTicks_le b.cmp
  have hcnt : (nextCount b).toNat = b.cnt.toNat + 1 := by
    rw [nextCount, BitVec.toNat_add]
    exact Nat.mod_eq_of_lt (show b.cnt.toNat + 1 < 256 by omega)
  exact ⟨h.en, h.plane, h.cmp, by rw [hcnt]; dsimp only; omega, by rw [hcnt]; dsimp only; omega⟩

/-- The schedule speaks of EN and of engine registers alone. -/
theorem onSchedule_of_inSlice {b' : Block} (h : OnSchedule j n b) (hb : InSlice b b.cnt.toNat b') : OnSchedule j n b' := by
  obtain ⟨-, hplane, hcmp, hrunning, hdue⟩ := h
  rw [← hb.plane] at hplane
  rw [← hb.cmp] at hcmp
  rw [← hb.cmp, ← hb.cnt] at hrunning hdue
  exact ⟨hb.en, hplane, hcmp, hrunning, hdue⟩

/-- A cycle on schedule: the SERVICE at its tick, or at most a tick before it and no SERVICE. -/
theorem onSchedule_after_one (hr : (currentInput s).rst = false) (h : OnSchedule j n s.block) :
    ((after 1 s).outs.sliceEvt = true ∧ nextTick s = true ∧ n + 1 = serviceTick (j + 1) ∧
        OnSchedule (j + 1) (n + 1) (after 1 s).block) ∨
      ((after 1 s).outs.sliceEvt = false ∧ (after 1 s).block.out = s.block.out ∧
        OnSchedule j (n + if nextTick s then 1 else 0) (after 1 s).block) := by
  have hslice := inSlice_after_one (b₀ := timerBlock s.cfg s.block (nextTick s)) hr
    ⟨(timerBlock_en _ _ _).trans h.en, rfl, rfl, rfl, rfl⟩
  rw [after_one_sliceEvt hr]
  rcases timerBlock_cases s.cfg s.block (nextTick s) with ⟨hnow, hb⟩ | ⟨hnow, -, ht, -, hb⟩ | ⟨hnow, hno, hb⟩ <;>
    rw [hb] at hslice
  · obtain ⟨ht, hlast⟩ := (serviceNow_iff_of_onSchedule h _).1 hnow
    exact .inl ⟨hnow, ht, hlast, onSchedule_of_inSlice (onSchedule_service h s.cfg hlast) hslice⟩
  · have hne : n + 1 ≠ serviceTick (j + 1) := fun hlast => by
      rw [(serviceNow_iff_of_onSchedule h _).2 ⟨ht, hlast⟩] at hnow
      cases hnow
    have hlt : n + 1 < serviceTick (j + 1) := Nat.lt_of_le_of_ne (lt_serviceTick_of_onSchedule h) hne
    rw [ht] at hnow ⊢
    exact .inr ⟨hnow, hslice.out, onSchedule_of_inSlice (onSchedule_count h hlt) hslice⟩
  · rw [hno.resolve_left (by simp [h.en])] at hnow ⊢
    exact .inr ⟨hnow, hslice.out, onSchedule_of_inSlice h hslice⟩

end Schedule

/-! ### Runs on schedule -/

section Run
variable (h : OnSchedule 0 0 s.block) (hr : NoReset s.inputs)
include h hr

/-- A run from a state that opens a cycle stays on schedule. -/
theorem onSchedule_after (k : Nat) :
    OnSchedule (serviceCount k s) (ticksIn (s.inputs.take k)) (after k s).block := by
  induction k with
  | zero => exact h
  | succ k ih =>
    rw [serviceCount_succ, ticksIn_take_succ, after_succ']
    rcases onSchedule_after_one (currentInput_rst_after hr k) ih with ⟨hevt, ht, -, hnext⟩ | ⟨hevt, -, hnext⟩
    · rw [hevt, ht]
      exact hnext
    · rw [hevt]
      exact hnext

/-- What a cycle of such a run does to the counts of SERVICEs and ticks: the SERVICE that is due, at its tick, or none. -/
theorem service_after_cases (k : Nat) :
    ((after (k + 1) s).outs.sliceEvt = true ∧ nextTick (after k s) = true ∧
        ticksIn (s.inputs.take (k + 1)) = serviceTick (serviceCount k s + 1) ∧
        serviceCount (k + 1) s = serviceCount k s + 1) ∨
      ((after (k + 1) s).outs.sliceEvt = false ∧ (after (k + 1) s).block.out = (after k s).block.out ∧
        serviceCount (k + 1) s = serviceCount k s) := by
  rw [serviceCount_succ, ticksIn_take_succ, after_succ']
  rcases onSchedule_after_one (currentInput_rst_after hr k) (onSchedule_after h hr k) with
    ⟨hevt, ht, hn, -⟩ | ⟨hevt, hout, -⟩
  · rw [hevt, ht]
    exact .inl ⟨rfl, rfl, hn, rfl⟩
  · rw [hevt]
    exact .inr ⟨rfl, hout, rfl⟩

theorem sliceEvt_after_iff_of_onSchedule (k : Nat) :
    (after (k + 1) s).outs.sliceEvt = true ↔
      nextTick (after k s) = true ∧ ticksIn (s.inputs.take k) + 1 = serviceTick (serviceCount k s + 1) := by
  rw [after_succ', after_one_sliceEvt (currentInput_rst_after hr k)]
  exact serviceNow_iff_of_onSchedule (onSchedule_after h hr k) _

end Run

/-- Settles O52: the default reset values open a cycle; the SERVICE due is number `serviceCount k s + 1`, and T is strictly
monotone, so no other j fits. -/
theorem serviceTicksFollowTheFormula : Obligations.ServiceTicksFollowTheFormula := by
  intro s k hen hplane hcmp hcnt hr _
  have h0 : OnSchedule 0 0 s.block :=
    opensCycle_iff_onSchedule.1 ⟨hen, hplane, by rw [compareMatch_iff, hcnt, hcmp]; rfl⟩
  have h := onSchedule_after h0 hr k
  refine ⟨?_, fun j hj hn => ?_, fun j hj hle hlt => ?_⟩
  · rw [sliceEvt_after_iff_of_onSchedule h0 hr]
    refine and_congr_right fun _ => ⟨fun hn => ⟨_, Nat.succ_pos _, hn⟩, fun ⟨j, hj, hn⟩ => ?_⟩
    rwa [← eq_succ_of_serviceTick h hj hn]
  · obtain rfl := eq_succ_of_serviceTick h hj hn
    exact h.plane
  · obtain rfl := eq_of_between_serviceTicks h hj hle hlt
    have hcount := cnt_of_onSchedule h hj
    exact ⟨by omega, h.cmp hj, h.plane⟩

/-! ### A full modulation cycle (R96) -/

theorem ticksIn_take_mono (l : List CycleIn) {j k : Nat} (h : j ≤ k) : ticksIn (l.take j) ≤ ticksIn (l.take k) :=
  (List.take_sublist_take_left h).countP_le

/-- With the last tick of a cycle the next cycle is about to open. -/
theorem onSchedule_zero_of_fullCycle (h : OnSchedule 8 255 s.block) : OnSchedule 0 0 s.block := by
  have hdue := h.due
  rw [serviceTick_nine] at hdue
  exact ⟨h.en, h.plane, nofun, h.running, by rw [serviceTick_one]; omega⟩

section FullCycle
variable {j k : Nat} (h : OnSchedule 0 0 s.block) (hr : NoReset s.inputs)
include h hr

/-- In the 255 ticks of a cycle no more than eight SERVICEs are done. -/
theorem serviceCount_le_eight (hk : ticksIn (s.inputs.take k) ≤ 255) : serviceCount k s ≤ 8 := by
  by_contra hgt
  have hpos : 1 ≤ serviceCount k s := by omega
  have hcnt := cnt_of_onSchedule (onSchedule_after h hr k) hpos
  have hnine : serviceCount k s < 9 := (serviceTick_lt_iff hpos (by decide)).1 (by rw [serviceTick_nine]; omega)
  omega

/-- The first tick performs a SERVICE. -/
theorem serviceCount_pos (hk : 1 ≤ ticksIn (s.inputs.take k)) : 1 ≤ serviceCount k s := by
  by_contra hlt
  have hnext := lt_serviceTick_of_onSchedule (onSchedule_after h hr k)
  rw [Nat.eq_zero_of_not_pos hlt, serviceTick_one] at hnext
  omega

theorem serviceCount_of_fullCycle (hk : ticksIn (s.inputs.take k) = 255) : serviceCount k s = 8 := by
  have hend := onSchedule_after h hr k
  rw [hk] at hend
  exact (eq_of_between_serviceTicks hend (i := 8) (by decide) (by decide) (by decide)).symm

/-- A SERVICE of the cycle reads the mask of its number, and is at the tick of its weight. -/
theorem service_of_fullCycle (hk : ticksIn (s.inputs.take k) = 255) (hj : j < k)
    (hevt : (after (j + 1) s).outs.sliceEvt = true) :
    serviceCount j s < 8 ∧ (after j s).block.plane = weight (serviceCount j s) ∧
      (after (j + 1) s).block.cmp = weight (serviceCount j s) ∧
      ticksIn (s.inputs.take (j + 1)) = 2 ^ serviceCount j s := by
  have hticks : ticksIn (s.inputs.take (j + 1)) ≤ 255 := (ticksIn_take_mono _ hj).trans hk.le
  have hle := serviceCount_le_eight h hr hticks
  rcases service_after_cases h hr j with ⟨-, -, hn, hcount⟩ | ⟨hno, -⟩
  · have hlt : serviceCount j s < 8 := by omega
    have hmod := Nat.mod_eq_of_lt hlt
    have hplane := (onSchedule_after h hr j).plane
    rw [hmod] at hplane
    rw [serviceTick_succ, Nat.div_eq_of_lt hlt, hmod] at hn
    rw [after_succ'] at hevt ⊢
    exact ⟨hlt, hplane, (after_one_plane_cmp_of_sliceEvt hevt).1.trans hplane, by omega⟩
  · rw [hevt] at hno
    cases hno

end FullCycle

/-- Settles O53: the eighth SERVICE is at tick 128 and the ninth at tick 256. -/
theorem fullCycleHasEightServices : Obligations.FullCycleHasEightServices := by
  intro s k hopen hr hk _
  have h := opensCycle_iff_onSchedule.1 hopen
  have hcount := serviceCount_of_fullCycle h hr hk
  refine ⟨hcount, ?_, fun j hj hevt => ?_⟩
  · have hend := onSchedule_after h hr k
    rw [hcount, hk] at hend
    exact opensCycle_iff_onSchedule.2 (onSchedule_zero_of_fullCycle hend)
  · obtain ⟨hlt, -, hcmp, hn⟩ := service_of_fullCycle h hr hk hj hevt
    exact ⟨_, hlt, hcmp, hn⟩

/-! ### The high time of a line -/

/-- Line `i` has the level `level m` after SERVICE `m`, counted from 0, for the SERVICEs of the first `k` cycles. -/
def ServicesSet (i : Nat) (level : Nat → Bool) (k : Nat) (s : State) : Prop :=
  ∀ j, j < k → (after (j + 1) s).outs.sliceEvt = true →
    (after (j + 1) s).block.out.getLsbD i = level (serviceCount j s)

/-- The sum of the weights `2^m` of the slices `m < c` with a high level. -/
def highWeight (level : Nat → Bool) (c : Nat) : Nat := ((List.range c).map fun m => if level m then 2 ^ m else 0).sum

theorem highWeight_succ (level : Nat → Bool) (c : Nat) :
    highWeight level (c + 1) = highWeight level c + if level c then 2 ^ c else 0 := by
  simp [highWeight, List.range_succ]

theorem servicesSet_mono {i j k : Nat} {level : Nat → Bool} (h : ServicesSet i level k s) (hj : j ≤ k) :
    ServicesSet i level j s := fun l hl => h l (Nat.lt_of_lt_of_le hl hj)

section HighTime
variable {i k : Nat} {level : Nat → Bool} (h : OnSchedule 0 0 s.block) (hr : NoReset s.inputs)
include h hr

/-- A line keeps its level to the next SERVICE. -/
theorem out_of_servicesSet (hset : ServicesSet i level k s) (hpos : 1 ≤ serviceCount k s) :
    (after k s).block.out.getLsbD i = level (serviceCount k s - 1) := by
  induction k with
  | zero => exact absurd hpos (by simp [serviceCount])
  | succ k ih =>
    rcases service_after_cases h hr k with ⟨hevt, -, -, hcount⟩ | ⟨-, hout, hcount⟩
    · rw [hset k (Nat.lt_succ_self k) hevt, hcount, Nat.add_sub_cancel]
    · rw [hcount] at hpos ⊢
      rw [hout]
      exact ih (servicesSet_mono hset (Nat.le_succ k)) hpos

/-- A tick counts for the line at the level of the slice that the tick is in. -/
theorem highTicks_succ_of_servicesSet (hset : ServicesSet i level (k + 1) s) :
    highTicks i (k + 1) s =
      highTicks i k s + (if nextTick (after k s) && level (serviceCount (k + 1) s - 1) then 1 else 0) := by
  rw [highTicks_succ]
  cases ht : nextTick (after k s) with
  | false => rfl
  | true =>
    have hfirst : 1 ≤ ticksIn (s.inputs.take (k + 1)) := by
      rw [ticksIn_take_succ, ht]
      exact Nat.le_add_left 1 _
    rw [out_of_servicesSet h hr hset (serviceCount_pos h hr hfirst)]

/-- The high time so far, and what is left of a slice with a high level, make up the weights of the slices begun. -/
theorem highTicks_add_rest (hset : ServicesSet i level k s) (hle : serviceCount k s ≤ 8) :
    highTicks i k s + (if level (serviceCount k s - 1) then serviceTick (serviceCount k s + 1) - 1 -
      ticksIn (s.inputs.take k) else 0) = highWeight level (serviceCount k s) := by
  induction k with
  | zero => simp [highTicks, serviceCount, highWeight, ticksIn, serviceTick_one]
  | succ k ih =>
    have hbegun := ih (servicesSet_mono hset (Nat.le_succ k))
    have hticks := ticksIn_take_succ k s
    have hnext := lt_serviceTick_of_onSchedule (onSchedule_after h hr (k + 1))
    rw [highTicks_succ_of_servicesSet h hr hset]
    rcases service_after_cases h hr k with ⟨-, ht, hn, hcount⟩ | ⟨-, -, hcount⟩ <;> rw [hcount] at hle hnext ⊢
    · have hslice := serviceTick_add_weight (Nat.le_add_left 1 (serviceCount k s))
      rw [Nat.add_sub_cancel, Nat.mod_eq_of_lt (Nat.lt_of_succ_le hle)] at hslice
      rw [ht, if_pos rfl] at hticks
      have hrest : serviceTick (serviceCount k s + 1) - 1 - ticksIn (s.inputs.take k) = 0 := by omega
      rw [hrest, ite_self, Nat.add_zero] at hbegun
      rw [Nat.add_sub_cancel, highWeight_succ, ← hbegun (Nat.le_of_succ_le hle), ht]
      cases level (serviceCount k s)
      · rfl
      · simp only [Bool.and_self, if_true]
        omega
    · rw [← hbegun hle]
      cases level (serviceCount k s - 1)
      · rw [Bool.and_false]
        rfl
      · simp only [Bool.and_true, if_true]
        omega

/-- Over a full cycle every slice counts in full. -/
theorem highTicks_of_fullCycle (hk : ticksIn (s.inputs.take k) = 255) (hset : ServicesSet i level k s) :
    highTicks i k s = highWeight level 8 := by
  have hcount := serviceCount_of_fullCycle h hr hk
  have hsum := highTicks_add_rest h hr hset hcount.le
  rw [hcount, hk, serviceTick_nine, Nat.sub_self, ite_self] at hsum
  exact hsum

/-- A SERVICE of the cycle writes the word of the store it sees and of its weight (R69). -/
theorem out_of_service_of_fullCycle (hk : ticksIn (s.inputs.take k) = 255) {j : Nat} (hj : j < k)
    (hevt : (after (j + 1) s).outs.sliceEvt = true) :
    (after (j + 1) s).block.out =
      outw s.cfg.ch0Raw (Memory.snapshot s.cfg (after j s).block.duty) (weight (serviceCount j s)) := by
  obtain ⟨-, hplane, -⟩ := service_of_fullCycle h hr hk hj hevt
  rw [after_succ'] at hevt ⊢
  rw [after_one_out_of_sliceEvt hevt, after_cfg, hplane]

end HighTime

theorem snapshot_of_dutyAt {i j : Nat} {d : Byte} (hd : dutyAt (after j s) i = some d) :
    (Memory.snapshot s.cfg (after j s).block.duty)[i]? = some d := by
  rw [snapshot_getElem?, ← hd, dutyAt, after_cfg]

/-! ### Normalised mode (R97, R98, R99) -/

/-- The duty value that the SERVICE of weight `2^m` sees has a bit m, and that is the line's level. -/
theorem servicesSet_normalised {i k : Nat} {d : Nat → Byte} (h : OnSchedule 0 0 s.block) (hr : NoReset s.inputs)
    (hk : ticksIn (s.inputs.take k) = 255) (hraw : s.cfg.ch0Raw = false) (hi : i < s.cfg.n)
    (hduty : ∀ j m, j < k → m < 8 → (after (j + 1) s).outs.sliceEvt = true → (after (j + 1) s).block.cmp = weight m →
      dutyAt (after j s) i = some (d m)) : ServicesSet i (fun m => (d m).getLsbD m) k s := by
  intro j hj hevt
  obtain ⟨hm, -, hcmp, -⟩ := service_of_fullCycle h hr hk hj hevt
  have hcell := snapshot_of_dutyAt (hduty j _ hj hm hevt hcmp)
  have hi8 : i < 8 := Nat.lt_of_lt_of_le hi s.cfg.topChannel.isLt
  rw [out_of_service_of_fullCycle h hr hk hj hevt, hraw, outw_normalised_of_channel _ hi8 hcell]
  simp only [and_weight_ne_zero_iff hm, Bool.decide_eq_true]

/-- Settles O54: the level of slice m is bit m of d_m. -/
theorem highTimeWithChangesInMidCycle : Obligations.HighTimeWithChangesInMidCycle := by
  intro s k i d hopen hraw hi hr hk _ hduty
  have h := opensCycle_iff_onSchedule.1 hopen
  exact highTicks_of_fullCycle h hr hk (servicesSet_normalised h hr hk hraw hi hduty)

/-- The bits of a number below bit c, with their weights, make up the number modulo 2^c. -/
theorem highWeight_testBit (n c : Nat) : highWeight n.testBit c = n % 2 ^ c := by
  induction c with
  | zero => rw [Nat.pow_zero, Nat.mod_one]; rfl
  | succ c ih =>
    rw [highWeight_succ, ih, Nat.mod_pow_succ, ← Nat.toNat_testBit]
    cases n.testBit c <;> simp

/-- The bits of a byte, with their weights, make up its value. -/
theorem highWeight_getLsbD (d : Byte) : highWeight d.getLsbD 8 = d.toNat :=
  (highWeight_testBit d.toNat 8).trans (Nat.mod_eq_of_lt d.isLt)

/-- Settles O55: the weights of the bits of d make up d. -/
theorem highTimeIsProportional : Obligations.HighTimeIsProportional := by
  intro s k i d hopen hraw hi hr hk hsafe hduty
  have hhigh : highTicks i k s = highWeight d.getLsbD 8 :=
    highTimeWithChangesInMidCycle s k i (fun _ => d) hopen hraw hi hr hk hsafe fun j _ hj _ hevt _ => hduty j hj hevt
  rw [hhigh, highWeight_getLsbD, hk]
  exact ⟨rfl, rfl⟩

/-- Settles O56: after the first tick a SERVICE of the cycle has set the line to a bit of d, and all bits of 0x00 are 0 and
all of 0xFF 1; the high time is d. -/
theorem extremeDutiesAreConstant : Obligations.ExtremeDutiesAreConstant := by
  intro s k i d hopen hraw hi hr hk hsafe hduty
  have h := opensCycle_iff_onSchedule.1 hopen
  have hset : ServicesSet i d.getLsbD k s :=
    servicesSet_normalised (d := fun _ => d) h hr hk hraw hi fun j _ hj _ hevt _ => hduty j hj hevt
  obtain ⟨hhigh, -⟩ := highTimeIsProportional s k i d hopen hraw hi hr hk hsafe hduty
  refine ⟨fun j hj hfirst => ?_, ?_, ?_⟩
  · have hpos := serviceCount_pos h hr hfirst
    have hle := serviceCount_le_eight h hr ((ticksIn_take_mono s.inputs hj).trans hk.le)
    rw [out_of_servicesSet h hr (servicesSet_mono hset hj) hpos]
    constructor <;> rintro rfl
    · exact BitVec.getLsbD_zero
    · rw [show (0xFF : Byte) = BitVec.allOnes 8 from rfl, BitVec.getLsbD_allOnes]
      exact decide_eq_true (by omega)
  · rw [hhigh]
    exact BitVec.toNat_inj (y := 0x00)
  · rw [hhigh]
    exact BitVec.toNat_inj (y := 0xFF)

/-! ### Legacy mode (R102) -/

/-- A level changed in one slice changes the sum by the weight of that slice. -/
theorem highWeight_of_one_changed {level level' : Nat → Bool} {i : Nat} (hother : ∀ m, m ≠ i → level' m = level m)
    {c : Nat} (hi : i < c) :
    highWeight level' c + (if level i then 2 ^ i else 0) = highWeight level c + if level' i then 2 ^ i else 0 := by
  induction c with
  | zero => exact absurd hi (Nat.not_lt_zero i)
  | succ c ih =>
    rw [highWeight_succ, highWeight_succ]
    by_cases hic : i = c
    · subst hic
      have hbelow : highWeight level' i = highWeight level i := by
        unfold highWeight
        rw [List.map_congr_left fun m hm => by rw [hother m (List.mem_range.1 hm).ne]]
      omega
    · rw [hother c (Ne.symm hic)]
      have hsum := ih (by omega)
      omega

section LegacyLevels
variable {i k : Nat} {a b : Byte} (h : OnSchedule 0 0 s.block) (hr : NoReset s.inputs)
  (hk : ticksIn (s.inputs.take k) = 255) (hraw : s.cfg.ch0Raw = true)
include h hr hk hraw

/-- A SERVICE's word in legacy mode, with channel 0's value apart. -/
theorem out_of_service_legacy {j : Nat} (hj : j < k) (hevt : (after (j + 1) s).outs.sliceEvt = true)
    (ha : dutyAt (after j s) 0 = some a) :
    ∃ ds, Memory.snapshot s.cfg (after j s).block.duty = a :: ds ∧
      (after (j + 1) s).block.out = outw true (a :: ds) (weight (serviceCount j s)) := by
  have hcell := snapshot_of_dutyAt ha
  have hout := out_of_service_of_fullCycle h hr hk hj hevt
  rw [hraw] at hout
  cases hD : Memory.snapshot s.cfg (after j s).block.duty with
  | nil =>
    rw [hD] at hcell
    cases hcell
  | cons d0 ds =>
    rw [hD] at hcell hout
    obtain rfl : d0 = a := Option.some.inj hcell
    exact ⟨ds, rfl, hout⟩

/-- Line 0 carries bit 0 of channel 0, in the slice of weight 1 alone. -/
theorem servicesSet_legacy_line_zero
    (ha : ∀ j, j < k → (after (j + 1) s).outs.sliceEvt = true → dutyAt (after j s) 0 = some a) :
    ServicesSet 0 (fun m => decide (m = 0) && a.getLsbD 0) k s := by
  intro j hj hevt
  obtain ⟨hm, -⟩ := service_of_fullCycle h hr hk hj hevt
  obtain ⟨ds, -, hout⟩ := out_of_service_legacy h hr hk hraw hj hevt (ha j hj hevt)
  rw [hout, outw_legacy_line_zero hm]

/-- Another line carries its own value, and channel 0's bit in the slice of the line's number. -/
theorem servicesSet_legacy (hi : i < s.cfg.n) (hpos : 1 ≤ i)
    (hduty : ∀ j, j < k → (after (j + 1) s).outs.sliceEvt = true →
      dutyAt (after j s) 0 = some a ∧ dutyAt (after j s) i = some b) :
    ServicesSet i (fun m => decide (m = i) && a.getLsbD i || b.getLsbD m) k s := by
  intro j hj hevt
  obtain ⟨hm, -⟩ := service_of_fullCycle h hr hk hj hevt
  obtain ⟨ha, hb⟩ := hduty j hj hevt
  obtain ⟨ds, hD, hout⟩ := out_of_service_legacy h hr hk hraw hj hevt ha
  have hcell := snapshot_of_dutyAt hb
  rw [hD] at hcell
  rw [hout, outw_legacy_of_channel hm hpos (Nat.lt_of_lt_of_le hi s.cfg.topChannel.isLt) hcell]

end LegacyLevels

/-- Settles O57: line 0's level is that of a dark line changed in slice 0; another line's is that of its own value changed in
slice i. -/
theorem legacyHighTime : Obligations.LegacyHighTime := by
  intro s k i a b hopen hraw hi hr hk _ hduty
  have h := opensCycle_iff_onSchedule.1 hopen
  refine ⟨?_, fun hpos => ?_⟩
  · rw [highTicks_of_fullCycle h hr hk
      (servicesSet_legacy_line_zero h hr hk hraw fun j hj hevt => (hduty j hj hevt).1)]
    have hone := highWeight_of_one_changed (level := fun _ => false) (level' := fun m => decide (m = 0) && a.getLsbD 0)
      (i := 0) (fun m hm => by simp [hm]) (show 0 < 8 by decide)
    simpa [show highWeight (fun _ => false) 8 = 0 from rfl] using hone
  · rw [highTicks_of_fullCycle h hr hk (servicesSet_legacy h hr hk hraw hi hpos hduty)]
    have hone := highWeight_of_one_changed (level := b.getLsbD)
      (level' := fun m => decide (m = i) && a.getLsbD i || b.getLsbD m) (i := i) (fun m hm => by simp [hm])
      (Nat.lt_of_lt_of_le hi s.cfg.topChannel.isLt)
    simp only [highWeight_getLsbD, decide_true, Bool.true_and] at hone
    have hbit : (if b.getLsbD i then 2 ^ i else 0) ≤ b.toNat := by
      split
      · exact Nat.ge_two_pow_of_testBit ‹_›
      · exact Nat.zero_le _
    omega

/-! ### INITs in mid-run (R100) -/

/-- The block is ARMED and drives the lines of its channels, so that an INIT finds nothing to write. -/
def DrivesLines (c : Config) (b : Block) : Prop := b.en = true ∧ b.oe = driveMask c

/-- Cycle `i'` is `i`, or has an INIT in addition where `i` carries no command. -/
def InitPutIn (i i' : CycleIn) : Prop :=
  i' = i ∨ (i.cmdValid = false ∧ i'.rst = i.rst ∧ i'.tick = i.tick ∧ presentsInit i' = true)

/-- State `t` is `s` but for INITs put into its coming cycles, and they have nothing to write. -/
structure InitsPutIn (s t : State) : Prop where
  same : t = { s with inputs := t.inputs }
  drives : DrivesLines s.cfg s.block
  noReset : NoReset s.inputs
  inputs : List.Forall₂ InitPutIn s.inputs t.inputs

section Init
variable {t : State} {i i' : CycleIn}

theorem exec_init_of_drivesLines (h : DrivesLines s.cfg s.block) : exec .init s = .next (quiet s) := by
  rw [exec_init, arm_eq_self h.1 h.2, ite_self]

/-- Where an INIT has nothing to write, it answers what no command answers. -/
theorem commandResult_of_initPutIn (h : DrivesLines s.cfg s.block) (hi : InitPutIn i i') :
    commandResult i' s = commandResult i s := by
  rcases hi with rfl | ⟨hv, -, -, hinit⟩
  · rfl
  · obtain ⟨hv', hd⟩ := Bool.and_eq_true_iff.1 hinit
    have hcmd : commandPart i' s = commandPart i s := by
      rw [commandPart_of_instr hv' (of_decide_eq_true hd), exec_init_of_drivesLines h, commandPart_of_no_command hv]
    rw [commandPart_eq, commandPart_eq] at hcmd
    exact Host.Outcome.next.inj hcmd

/-- A command neither reads nor writes the inputs of the cycles to come. -/
theorem commandResult_withInputs (i : CycleIn) (s : State) (rest : List CycleIn) :
    commandResult i { s with inputs := rest } = { commandResult i s with inputs := rest } := by
  unfold commandResult
  cases i.cmdValid with
  | false => rfl
  | true =>
    dsimp only
    cases decodeChecked s.cfg.n i.cmd with
    | init => cases s.cfg.hwSupported <;> rfl
    | _ => rfl

theorem drivesLines_timerBlock {c : Config} {b : Block} (h : DrivesLines c b) (tick : Bool) :
    DrivesLines c (timerBlock c b tick) :=
  ⟨(timerBlock_en c b tick).trans h.1, (timerBlock_oe c b tick).trans h.2⟩

theorem drivesLines_commandEffect {c : Config} {b b' : Block} (h : DrivesLines c b) (he : CommandEffect c b b') :
    DrivesLines c b' := by
  cases he with
  | nothing => exact h
  | setup _ => exact ⟨rfl, rfl⟩
  | cell _ _ _ => exact h

/-- Only a reset ends the state ARMED (R65) or changes what an armed block drives (R22). -/
theorem drivesLines_after_one (h : DrivesLines s.cfg s.block) (hr : (currentInput s).rst = false) :
    DrivesLines (after 1 s).cfg (after 1 s).block := by
  obtain ⟨u, hanswer, -, -, -, he⟩ :=
    commandPart_effect (currentInput s) (timerPart (nextTick s) (dropInput s))
  rw [commandPart_eq] at hanswer
  obtain rfl := Host.Outcome.next.inj hanswer
  rw [after_cfg, after_one_of_no_reset hr]
  exact drivesLines_commandEffect (drivesLines_timerBlock h _) he

theorem initPutIn_headD {ins ins' : List CycleIn} (h : List.Forall₂ InitPutIn ins ins') :
    InitPutIn (ins.headD CycleIn.idle) (ins'.headD CycleIn.idle) := by
  cases h with
  | nil => exact .inl rfl
  | cons hfirst _ => exact hfirst

theorem rst_tick_of_initPutIn (h : InitPutIn i i') : i'.rst = i.rst ∧ i'.tick = i.tick := by
  rcases h with rfl | ⟨-, hrst, htick, -⟩
  · exact ⟨rfl, rfl⟩
  · exact ⟨hrst, htick⟩

/-- The two states go through a cycle alike: the timer part sees the same tick, and then the commands answer alike. -/
theorem initsPutIn_after_one (h : InitsPutIn s t) : InitsPutIn (after 1 s) (after 1 t) := by
  obtain ⟨hsame, hdrives, hnoReset, hinputs⟩ := h
  have hr := currentInput_rst hnoReset
  have hi : InitPutIn (currentInput s) (currentInput t) := initPutIn_headD hinputs
  obtain ⟨hrst, htick⟩ := rst_tick_of_initPutIn hi
  have htimer : timerPart (nextTick t) (dropInput t) =
      { timerPart (nextTick s) (dropInput s) with inputs := t.inputs.tail } := by
    rw [show nextTick t = nextTick s from htick, hsame]
    rfl
  refine ⟨?_, drivesLines_after_one hdrives hr, ?_, ?_⟩
  · rw [after_inputs, List.drop_one, after_one_of_no_reset hr, after_one_of_no_reset (hrst.trans hr), htimer,
      commandResult_withInputs, commandResult_of_initPutIn (drivesLines_timerBlock hdrives _) hi]
  · rw [after_inputs]
    exact noReset_drop hnoReset 1
  · rw [after_inputs, after_inputs]
    exact List.forall₂_drop 1 hinputs

theorem initsPutIn_after (h : InitsPutIn s t) (k : Nat) : InitsPutIn (after k s) (after k t) := by
  induction k generalizing s t with
  | zero => exact h
  | succ k ih =>
    rw [after_succ k s, after_succ k t]
    exact ih (initsPutIn_after_one h)

end Init

/-- Settles O58: the two runs differ in the inputs to come alone. -/
theorem repeatedInitChangesNothing : Obligations.RepeatedInitChangesNothing := by
  intro s ins ins' k hen hoe hr _ hi
  have hrun := initsPutIn_after (s := { s with inputs := ins }) (t := { s with inputs := ins' })
    ⟨rfl, ⟨hen, hoe⟩, hr, hi⟩ k
  rw [hrun.same]
  exact ⟨rfl, rfl⟩

end Sys2Proof.Proofs

/-! ## Command errors (60_exceptions.md)
`commandError` names the error of a cycle's command. First its causes, in the decoder's terms and on the raw fields of the
word; then what a cycle with such an error does and what every cycle shows on `cmd_err`. The three statements follow. -/

namespace Sys2Proof.Proofs

open Machine Laws

variable {s : State}

/-! ### The causes of an error (R105, R111) -/

section Causes
variable {n : Nat} {i : CycleIn}

/-- The decoder's result that makes the error. -/
def errorResult : CmdError → Checked
  | .eOpcode => .badOpcode
  | .eChannel => .badChannel

theorem commandError_eq_some_iff {e : CmdError} :
    commandError n i = some e ↔ i.rst = false ∧ i.cmdValid = true ∧ decodeChecked n i.cmd = errorResult e := by
  unfold commandError
  cases i.rst with
  | true => simp
  | false =>
    cases i.cmdValid with
    | false => simp
    | true => cases e <;> cases decodeChecked n i.cmd <;> simp [errorResult]

theorem decodeChecked_eq_badOpcode_iff {w : CmdWord} :
    decodeChecked n w = .badOpcode ↔ opField w = 0x0#4 ∨ 4 ≤ (opField w).toNat := by
  rw [← decode_eq_badOpcode_iff]
  rcases decodeChecked_cases n w with ⟨hd, h⟩ | ⟨_, _, hd, ⟨-, h⟩ | ⟨-, h⟩⟩ | ⟨_, hd, ⟨-, h⟩ | ⟨-, h⟩⟩ | ⟨hd, h⟩ <;>
    simp [hd, h]

/-- Only the two store commands ask for a channel below N. -/
theorem decodeChecked_eq_badChannel_iff {w : CmdWord} :
    decodeChecked n w = .badChannel ↔ (opField w = 0x2#4 ∨ opField w = 0x3#4) ∧ n ≤ (chField w).toNat := by
  unfold decodeChecked
  by_cases hc : (chField w).toNat < n
  · have hno : ¬n ≤ (chField w).toNat := Nat.not_le.2 hc
    simp only [hc, hno, and_true, and_false, iff_false]
    split_ifs <;> nofun
  · by_cases h2 : opField w = 0x2#4
    · simp [h2, hc, Nat.le_of_not_lt hc]
    · by_cases h3 : opField w = 0x3#4
      · simp [h3, hc, Nat.le_of_not_lt hc]
      · simp only [h2, h3, false_and, if_false, or_self, iff_false]
        split_ifs <;> nofun

/-- The two causes on the raw fields of a presented word, the opcode before the channel. -/
theorem commandError_eq_of_fields (n : Nat) (i : CycleIn) :
    commandError n i =
      if i.rst = false ∧ i.cmdValid = true then
        if opField i.cmd = 0x0#4 ∨ 4 ≤ (opField i.cmd).toNat then some .eOpcode
        else if (opField i.cmd = 0x2#4 ∨ opField i.cmd = 0x3#4) ∧ n ≤ (chField i.cmd).toNat then some .eChannel
        else none
      else none := by
  simp only [← decodeChecked_eq_badOpcode_iff (n := n), ← decodeChecked_eq_badChannel_iff]
  unfold commandError
  cases i.rst with
  | true => rfl
  | false =>
    cases i.cmdValid with
    | false => rfl
    | true => cases decodeChecked n i.cmd <;> rfl

end Causes

/-! ### A cycle with an error, and `cmd_err` in every cycle (R104) -/

/-- The command part of a cycle in error is the raise alone, on the state after the timer part. -/
theorem after_one_of_commandError {e : CmdError} (h : commandError s.cfg.n (currentInput s) = some e) :
    after 1 s = raiseCmdError e (timerPart (nextTick s) (dropInput s)) := by
  obtain ⟨hr, hv, hd⟩ := commandError_eq_some_iff.1 h
  rw [after_one_of_no_reset hr, commandResult, hv]
  simp only [timerPart_cfg, dropInput_cfg, hd]
  cases e <;> rfl

/-- What `cmd_err` shows for the error of a cycle's command, if there is one. -/
def errorCode (e : Option CmdError) : BitVec 2 := e.elim 0b00 CmdError.code

/-- The ports table shows the code of the cycle's error. -/
theorem cycleOutputs_cmdErr (c : Config) (b : Block) (i : CycleIn) :
    (cycleOutputs c b i).cmdErr = errorCode (commandError c.n i) := by
  unfold cycleOutputs commandError
  cases i.rst with
  | true => rfl
  | false =>
    cases i.cmdValid with
    | false => rfl
    | true => cases decodeChecked c.n i.cmd <;> rfl

theorem after_one_cmdErr (s : State) :
    (after 1 s).outs.cmdErr = errorCode (commandError s.cfg.n (currentInput s)) := by
  rw [after_one_eq, stepResult_outs, cycleOutputs_cmdErr]

theorem errorCode_ne_three (e : Option CmdError) : errorCode e ≠ 0b11 := by
  rcases e with - | - | - <;> decide

/-! ### The statements -/

/-- Settles O18: `after_one_of_commandError` where there is an error, and no code where there is none. -/
theorem commandErrorIsDiscardedAndShown : Obligations.CommandErrorIsDiscardedAndShown := by
  refine fun s => ⟨_, step_after_one s, ⟨_, step_after_one _⟩, fun e he => ?_, fun hnone => ?_⟩
  · rw [after_one_of_commandError he]
    refine ⟨rfl, ?_⟩
    cases e <;> rfl
  · rw [after_one_cmdErr, hnone]
    rfl

/-- Settles O20: `cmd_err` is the code of the cycle's error, and both causes are read off the word's fields. -/
theorem errorCausesAndCodes : Obligations.ErrorCausesAndCodes := by
  refine fun s => ⟨_, step_after_one s, ?_, ?_⟩ <;> rw [after_one_cmdErr]
  · exact errorCode_ne_three _
  · rw [commandError_eq_of_fields]
    simp only [apply_ite errorCode]
    rfl

/-- Settles O21: a code other than 0b00 is the code of an error, and each of the two errors has its one cause. -/
theorem nothingElseFaults : Obligations.NothingElseFaults := by
  refine fun s => ⟨_, step_after_one s, fun hcode => ?_⟩
  rw [after_one_cmdErr] at hcode
  cases herr : commandError s.cfg.n (currentInput s) with
  | none =>
    rw [herr] at hcode
    exact absurd rfl hcode
  | some e =>
    obtain ⟨hr, hv, hd⟩ := commandError_eq_some_iff.1 herr
    refine ⟨hr, hv, ?_⟩
    cases e with
    | eOpcode => exact .inl hd
    | eChannel => exact .inr hd

end Sys2Proof.Proofs

/-! ## RESET and what no producer can do (70_reset_and_hazards.md)
A reset cycle is read off `after_one_of_reset`. For the other two statements: what a cycle does to the engine does not depend
on its command, and a store's cell holds the value when the next cycle begins. -/

namespace Sys2Proof.Proofs

open Machine Laws

variable {s t : State}

/-! ### The reset cycle (R120, R121) -/

theorem after_one_block_of_reset (hr : (currentInput s).rst = true) : (after 1 s).block = resetBlock s.cfg := by
  rw [after_one_of_reset hr]
  rfl

/-- A reset cycle reads none of its inputs but `rst`. -/
theorem step_of_reset_congr (hr : (currentInput s).rst = true) (i : CycleIn) (hi : i.rst = true) :
    step { s with inputs := i :: s.inputs.tail } = step s := by
  rw [step_of_reset hr, step_of_reset (s := { s with inputs := i :: s.inputs.tail }) hi]
  rfl

/-- Settles O24: the block is `resetBlock` of the parameters, which no step changes; so a second RESET gives the same. -/
theorem resetEstablishesEveryValue : Obligations.ResetEstablishesEveryValue := by
  intro s hr
  have hblock := after_one_block_of_reset hr
  have hcell : ∀ a, a < s.cfg.n → dutyAt (after 1 s) a = some s.cfg.dutyReset :=
    fun a ha => dutyAt_step_of_reset hr (step_after_one s) ha
  refine ⟨_, step_after_one s, hcell, ?_⟩
  rw [hblock]
  refine ⟨rfl, rfl, rfl, rfl, rfl, rfl, fun _ => rfl, fun href => ?_, fun hr' => ?_⟩
  · rw [href] at hcell ⊢
    exact ⟨rfl, rfl, rfl, hcell⟩
  · exact ⟨_, step_after_one _, by rw [after_one_block_of_reset hr', after_cfg]⟩

/-- Settles O25: `step_of_reset_congr`, and the outputs of `resetCycle`. -/
theorem resetDominates : Obligations.ResetDominates :=
  fun _ tick valid w hr => ⟨step_of_reset_congr hr ⟨true, tick, valid, w⟩ rfl, _, step_of_reset hr, rfl⟩

/-! ### The engine under any command (R125) -/

/-- Two states that agree in the parameters, the block and the cycle's `rst` and `tick` agree after the cycle in the engine's
registers and in `slice_evt`, whatever their commands are. -/
theorem after_one_engine_congr (hcfg : t.cfg = s.cfg) (hblock : t.block = s.block)
    (hrst : (currentInput t).rst = (currentInput s).rst) (htick : nextTick t = nextTick s) :
    (after 1 t).outs.sliceEvt = (after 1 s).outs.sliceEvt ∧ (after 1 t).block.plane = (after 1 s).block.plane ∧
      (after 1 t).block.cnt = (after 1 s).block.cnt ∧ (after 1 t).block.cmp = (after 1 s).block.cmp ∧
      (after 1 t).block.out = (after 1 s).block.out := by
  cases hr : (currentInput s).rst with
  | true => simp [after_one_of_reset hr, after_one_of_reset (hrst.trans hr), hcfg]
  | false =>
    have hrt := hrst.trans hr
    rw [after_one_sliceEvt hr, after_one_sliceEvt hrt, after_one_block hr, after_one_block hrt, hcfg, hblock, htick]
    exact ⟨rfl, rfl, rfl, rfl, rfl⟩

/-- Settles O35: `after_one_en` says that no cycle without reset disarms the engine, and `after_one_engine_congr` that its
registers do not depend on the command. -/
theorem whatNoProducerCanDo : Obligations.WhatNoProducerCanDo := by
  refine fun s => ⟨_, step_after_one s, after_cfg 1 s, ?_, fun _ hr hen => ?_, fun valid w _ _ => ?_⟩
  · rw [after_inputs, List.drop_one]
  · rw [after_one_en, hr, hen]
    rfl
  · exact ⟨_, step_after_one _, after_one_engine_congr rfl rfl rfl rfl⟩

/-! ### A store and the read after it (R133) -/

/-- The next cycle finds the value in the cell of a valid SET_DUTY. -/
theorem dutyAt_after_one_setDuty {ch : BitVec 4} {val : Byte} (hm : Memory.wf s.cfg s.block.duty = true)
    (hc : ch.toNat < s.cfg.n) (hr : (currentInput s).rst = false) (hv : (currentInput s).cmdValid = true)
    (hd : decode (currentInput s).cmd = .instr (.setDuty ch val)) :
    dutyAt (after 1 s) (channelIndex ch) = some val := by
  rw [dutyAt, after_cfg, after_one_setDuty hc hr hv hd]
  exact read_put_self hm hc

/-- A GET_DUTY cycle responds with the value that its cell holds when the cycle begins. -/
theorem after_one_getDuty {ch : BitVec 4} {v : Byte} (hr : (currentInput s).rst = false)
    (hv : (currentInput s).cmdValid = true) (hd : decode (currentInput s).cmd = .instr (.getDuty ch))
    (hcell : dutyAt s (channelIndex ch) = some v) :
    after 1 s = respond v (timerPart (nextTick s) (dropInput s)) := by
  have hstep := step_after_one s
  have hold := (timerPart_keeps_dutyAt (nextTick s) (dropInput s) (channelIndex ch)).trans hcell
  rw [step_of_instr hr hv hd, exec_getDuty_of_cell hold] at hstep
  injection hstep with hafter
  exact hafter.symm

/-- Settles O36: the store's cycle leaves the value in the cell, and the next cycle, whose inputs are the second of the list,
responds with it. -/
theorem storeThenReadInTheNextCycle : Obligations.StoreThenReadInTheNextCycle := by
  intro s i j rest ch val hins hm hc hri hvi hdi hrj hvj hdj
  have hfirst : currentInput s = i := by rw [currentInput, hins]; rfl
  have hsecond : currentInput (after 1 s) = j := by rw [currentInput, after_inputs, hins]; rfl
  rw [← hfirst] at hri hvi hdi
  rw [← hsecond] at hrj hvj hdj
  have hcell := dutyAt_after_one_setDuty hm hc hri hvi hdi
  have hread := after_one_getDuty hrj hvj hdj hcell
  refine ⟨?_, ?_, ?_, by rw [after_inputs, hins]; rfl⟩ <;> rw [after_succ, hread] <;> rfl

end Sys2Proof.Proofs

/-! ## The fault record and the example words
What a cycle does to the model's fault record (93_implementation_defined.md U1, U2; notes/assumptions 3), and the example
words of 30_encoding.md section 9. -/

namespace Sys2Proof.Proofs

open Machine Laws

variable {s : State}

/-! ### The fault record -/

/-- A command without an error keeps the record. -/
theorem commandResult_violation_of_no_error {i : CycleIn} (hr : i.rst = false) (h : commandError s.cfg.n i = none) :
    (commandResult i s).violation = s.violation := by
  unfold commandError at h
  unfold commandResult
  cases hv : i.cmdValid with
  | false => rfl
  | true =>
    cases hd : decodeChecked s.cfg.n i.cmd with
    | init => simp only [quiet_violation, ite_self, apply_ite State.violation]
    | setDuty ch val => rfl
    | getDuty ch => rfl
    | badChannel => simp [hr, hv, hd] at h
    | badOpcode => simp [hr, hv, hd] at h

theorem after_one_violation_of_inContract (h : InContract s) : (after 1 s).violation = s.violation := by
  cases hr : (currentInput s).rst with
  | true => rw [after_one_of_reset hr]; rfl
  | false =>
    rw [after_one_of_no_reset hr]
    exact commandResult_violation_of_no_error hr h

/-- Settles O19: a cycle with an error passes it to `recordViolation`, and one without an error keeps the record. -/
theorem faultRecordIsTheFirstError : Obligations.FaultRecordIsTheFirstError := by
  refine fun s => ⟨_, step_after_one s, ?_⟩
  cases herr : commandError s.cfg.n (currentInput s) with
  | some e =>
    rw [after_one_of_commandError herr, raiseCmdError_violation, timerPart_violation, dropInput_violation]
    cases s.violation <;> rfl
  | none =>
    rw [after_one_violation_of_inContract herr]
    cases s.violation <;> rfl

/-! ### The example words (30_encoding.md section 9) -/

/-- Settles O6: the first four are canonical words, the next two have reserved opcodes, and channel 5 is beyond N = 5. -/
theorem exampleWordsOfTheSpec : Obligations.ExampleWordsOfTheSpec :=
  ⟨decodeEncodeRoundTrip .init, decodeEncodeRoundTrip (.setDuty 0 255), decodeEncodeRoundTrip (.setDuty 4 64),
    decodeEncodeRoundTrip (.getDuty 2), decode_formatC 0x7#4 0x0#4 0x00#8, decode_formatC 0x0#4 0x0#4 0x00#8,
    decodeChecked_eq_badChannel_iff.2 ⟨.inl rfl, Nat.le_refl 5⟩⟩

end Sys2Proof.Proofs
